-- ==== Sys2Proof/Word.lean ====
section
/-! DEFINITION. The word types, and the fixed sets of names that appear as operands of a command. -/

namespace Sys2Proof

/-- The content of an operand port or a result register: P = 256 bits (00_scope.md R9). -/
abbrev Word := BitVec 256

/-- A command word, the content of port CMD (10_state.md R18, 30_encoding.md R45). -/
abbrev CmdWord := BitVec 32

/-- The content of STATUS (10_state.md R21). -/
abbrev StatusWord := BitVec 32

/-- The width of a command, W = 128 or W = 256 (00_scope.md R6). -/
inductive Width where
  | w128
  | w256
  deriving DecidableEq, Repr

/-- The sources of operand A: port PA, or a result register (30_encoding.md R48, R51).
The selector value 3 is illegal and has no name here. -/
inductive SrcA where
  | pa
  | q
  | r
  deriving DecidableEq, Repr

/-- The sources of operand B: port PB, or a result register (30_encoding.md R49, R51). -/
inductive SrcB where
  | pb
  | q
  | r
  deriving DecidableEq, Repr

end Sys2Proof
end

