-- ==== Sys2Proof/Syntax.lean ====
section
/-! DEFINITION. The commands of the unit: one constructor per row of spec/opcode_table.json. -/

namespace Sys2Proof

/-- A legal command (30_encoding.md R53): its width WD, the source of operand A and the source of
operand B. The unary commands `not`, `neg` and `bitlen` carry the SB field too: it is decoded and
checked but not used (30_encoding.md R52). Keeping it makes legal words and commands one to one
(assumption log entry 9). -/
inductive Instr where
  /-- OP = 0x01, 40_compare.md R63. -/
  | cmp (w : Width) (a : SrcA) (b : SrcB)
  /-- OP = 0x02, 41_bitwise.md R67. -/
  | and (w : Width) (a : SrcA) (b : SrcB)
  /-- OP = 0x03, 41_bitwise.md R68. -/
  | or (w : Width) (a : SrcA) (b : SrcB)
  /-- OP = 0x04, 41_bitwise.md R69. -/
  | xor (w : Width) (a : SrcA) (b : SrcB)
  /-- OP = 0x05, unary, 41_bitwise.md R70. -/
  | not (w : Width) (a : SrcA) (b : SrcB)
  /-- OP = 0x06, 42_shift.md R73. -/
  | shl (w : Width) (a : SrcA) (b : SrcB)
  /-- OP = 0x07, 42_shift.md R75. -/
  | shr (w : Width) (a : SrcA) (b : SrcB)
  /-- OP = 0x08, 43_add_sub.md R79. -/
  | add (w : Width) (a : SrcA) (b : SrcB)
  /-- OP = 0x09, 43_add_sub.md R81. -/
  | sub (w : Width) (a : SrcA) (b : SrcB)
  /-- OP = 0x0A, unary, 43_add_sub.md R83. -/
  | neg (w : Width) (a : SrcA) (b : SrcB)
  /-- OP = 0x0B, 44_multiply.md R86. -/
  | mul (w : Width) (a : SrcA) (b : SrcB)
  /-- OP = 0x0C, 45_divide.md R91. -/
  | divrem (w : Width) (a : SrcA) (b : SrcB)
  /-- OP = 0x0D, unary, 45_divide.md R96. -/
  | bitlen (w : Width) (a : SrcA) (b : SrcB)
  deriving DecidableEq, Repr

end Sys2Proof
end

