-- ==== Sys2Proof/WellFormed.lean ====
section
/-! DEFINITION. Legality of a command word's fields, check by check (30_encoding.md R54). A term of
`Instr` cannot be ill formed: its fields have no illegal value. What can be ill formed is the raw
fields of a word, and the checks are about those. -/

namespace Sys2Proof

/-- The five fields of a command word, as raw bits (30_encoding.md R45). -/
structure Fields where
  /-- CMD[5:0]. -/
  op : BitVec 6
  /-- CMD[6]. -/
  wd : BitVec 1
  /-- CMD[8:7]. -/
  sa : BitVec 2
  /-- CMD[10:9]. -/
  sb : BitVec 2
  /-- CMD[31:11]. -/
  rsv : BitVec 21
  deriving DecidableEq, Repr

/-- RSV = 0 (30_encoding.md R50). -/
def Fields.reservedClear (f : Fields) : Bool := f.rsv == 0

/-- OP is one of 0x01 to 0x0D (30_encoding.md R46, R53, R54). -/
def Fields.operationListed (f : Fields) : Bool := decide (1 ≤ f.op.toNat) && decide (f.op.toNat < 0x0E)

/-- SA is not 3 (30_encoding.md R48). -/
def Fields.sourceAListed (f : Fields) : Bool := f.sa != 3

/-- SB is not 3, for every operation (30_encoding.md R49). -/
def Fields.sourceBListed (f : Fields) : Bool := f.sb != 3

/-- The fields of a legal command word: none of the four conditions of 30_encoding.md R54 holds. -/
def Fields.wellFormed (f : Fields) : Bool :=
  f.reservedClear && f.operationListed && f.sourceAListed && f.sourceBListed

/-- Which check an illegal word fails first. All four give the same error code, so the name is not
observable on the unit (60_exceptions.md R105, assumption log entry 12). -/
inductive IllegalReason where
  /-- RSV is not 0. -/
  | reservedBits
  /-- OP = 0x00 or OP ≥ 0x0E. -/
  | operation
  /-- SA = 3. -/
  | sourceA
  /-- SB = 3. -/
  | sourceB
  deriving DecidableEq, Repr

end Sys2Proof
end

