-- ==== Sys2Proof/Decode.lean ====
section
/-! DEFINITION. From a command word to a command or a named refusal, and back. Decoding is total on
all 2^32 words (30_encoding.md R56); the encoder writes a word from the fields of R45 and R53. -/

namespace Sys2Proof

/-- CMD[5:0] (30_encoding.md R46). -/
def opField (c : CmdWord) : BitVec 6 := c.extractLsb' 0 6

/-- CMD[6] (30_encoding.md R47). -/
def wdField (c : CmdWord) : BitVec 1 := c.extractLsb' 6 1

/-- CMD[8:7] (30_encoding.md R48). -/
def saField (c : CmdWord) : BitVec 2 := c.extractLsb' 7 2

/-- CMD[10:9] (30_encoding.md R49). -/
def sbField (c : CmdWord) : BitVec 2 := c.extractLsb' 9 2

/-- CMD[31:11] (30_encoding.md R50). -/
def rsvField (c : CmdWord) : BitVec 21 := c.extractLsb' 11 21

/-- All five fields of a word (30_encoding.md R45). -/
def fieldsOf (c : CmdWord) : Fields :=
  { op := opField c, wd := wdField c, sa := saField c, sb := sbField c, rsv := rsvField c }

/-- WD: 0 is W = 128, 1 is W = 256 (30_encoding.md R47). -/
def decodeWidth (b : BitVec 1) : Width :=
  match b.toNat with
  | 0 => .w128
  | _ => .w256

/-- SA: 0 is PA, 1 is Q, 2 is R, 3 is illegal (30_encoding.md R48, R51). -/
def decodeSrcA (b : BitVec 2) : Option SrcA :=
  match b.toNat with
  | 0 => some .pa
  | 1 => some .q
  | 2 => some .r
  | _ => none

/-- SB: 0 is PB, 1 is Q, 2 is R, 3 is illegal (30_encoding.md R49, R51). -/
def decodeSrcB (b : BitVec 2) : Option SrcB :=
  match b.toNat with
  | 0 => some .pb
  | 1 => some .q
  | 2 => some .r
  | _ => none

/-- The opcode map (30_encoding.md R53); a value not in it is illegal. -/
def decodeOp (op : BitVec 6) : Option (Width → SrcA → SrcB → Instr) :=
  match op.toNat with
  | 0x01 => some .cmp
  | 0x02 => some .and
  | 0x03 => some .or
  | 0x04 => some .xor
  | 0x05 => some .not
  | 0x06 => some .shl
  | 0x07 => some .shr
  | 0x08 => some .add
  | 0x09 => some .sub
  | 0x0A => some .neg
  | 0x0B => some .mul
  | 0x0C => some .divrem
  | 0x0D => some .bitlen
  | _ => none

/-- What a command word is: a legal command, or illegal (30_encoding.md R56). -/
inductive Decoded where
  | legal (i : Instr)
  | illegal (why : IllegalReason)
  deriving DecidableEq, Repr

/-- The decoder (30_encoding.md R45 to R56). A decoder needs no other input than CMD. -/
def decode (c : CmdWord) : Decoded :=
  if rsvField c = 0 then
    match decodeOp (opField c) with
    | none => .illegal .operation
    | some command =>
      match decodeSrcA (saField c) with
      | none => .illegal .sourceA
      | some a =>
        match decodeSrcB (sbField c) with
        | none => .illegal .sourceB
        | some b => .legal (command (decodeWidth (wdField c)) a b)
  else .illegal .reservedBits

/-- The WD bit of a width (30_encoding.md R47). -/
def encodeWidth : Width → BitVec 1
  | .w128 => 0
  | .w256 => 1

/-- The SA field of a source of operand A (30_encoding.md R51). -/
def encodeSrcA : SrcA → BitVec 2
  | .pa => 0
  | .q => 1
  | .r => 2

/-- The SB field of a source of operand B (30_encoding.md R51). -/
def encodeSrcB : SrcB → BitVec 2
  | .pb => 0
  | .q => 1
  | .r => 2

/-- A command word from its fields, RSV = 0 (30_encoding.md R45). -/
def commandWord (op : BitVec 6) (w : Width) (a : SrcA) (b : SrcB) : CmdWord :=
  0#21 ++ encodeSrcB b ++ encodeSrcA a ++ encodeWidth w ++ op

/-- The encoder: each command's word, with the OP value of 30_encoding.md R53. -/
def encode : Instr → CmdWord
  | .cmp w a b => commandWord 0x01 w a b
  | .and w a b => commandWord 0x02 w a b
  | .or w a b => commandWord 0x03 w a b
  | .xor w a b => commandWord 0x04 w a b
  | .not w a b => commandWord 0x05 w a b
  | .shl w a b => commandWord 0x06 w a b
  | .shr w a b => commandWord 0x07 w a b
  | .add w a b => commandWord 0x08 w a b
  | .sub w a b => commandWord 0x09 w a b
  | .neg w a b => commandWord 0x0A w a b
  | .mul w a b => commandWord 0x0B w a b
  | .divrem w a b => commandWord 0x0C w a b
  | .bitlen w a b => commandWord 0x0D w a b

/-- The command word that a row of spec/opcode_table.json with `nbits` bits stands for, as the value
of port CMD: bit 0 is the least significant (00_scope.md R11), and a command is 32 bits long
(30_encoding.md R57), so the bits above `nbits` are 0 (assumption log entry 8). -/
def tableWord (nbits w : Nat) : CmdWord := BitVec.ofNat 32 (w % 2 ^ nbits)

/-- The command the decoder reads from a row's word; none where it refuses, and none for a row longer
than a command word (30_encoding.md R57). -/
def decodeTableWord (nbits w : Nat) : Option Instr :=
  if nbits ≤ 32 then
    match decode (tableWord nbits w) with
    | .legal i => some i
    | .illegal _ => none
  else none

end Sys2Proof
end

