-- ==== Sys2Proof/Config.lean ====
section
/-! DEFINITION. The free values: the two parameters the spec leaves OPEN and that a command can read.
They have no body, so no proof can rest on what they are. -/

namespace Sys2Proof

/-- Parameter RESET_Q (10_state.md R30, 93_implementation_defined.md U1 and U2): what register Q
contains after the `n`-th reset until a command writes it. A free value, treatment "any value" of U1.
Assumption log entries 3 and 4 (DESIGN CHOICE). -/
opaque Config.resetQ (n : Nat) : Word

/-- Parameter RESET_R: what register R contains after the `n`-th reset until a DIVREM writes it.
A free value like `Config.resetQ`. Assumption log entries 3 and 4 (DESIGN CHOICE). -/
opaque Config.resetR (n : Nat) : Word

end Sys2Proof
end

