-- ==== Sys2Proof/Machine/State.lean ====
section
/-! DEFINITION. The state of the unit as plain data, the reasons a step can stop, and the state after
reset. -/

namespace Sys2Proof.Machine

/-- One command as the host issues it: the values of ports CMD, PA and PB, sampled once at the start
of the command's step (00_scope.md R16, 10_state.md R18). -/
structure Command where
  /-- Port CMD, the command word. -/
  cmd : CmdWord
  /-- Port PA, operand port A. -/
  pa : Word
  /-- Port PB, operand port B. -/
  pb : Word
  deriving DecidableEq, Repr

/-- What the host can do to the unit between steps, other than read it (70_reset_and_hazards.md R116). -/
inductive HostAction where
  /-- Drive the ports and issue the command. -/
  | issue (c : Command)
  /-- Assert reset (70_reset_and_hazards.md R113). Power-up and a power loss are resets too (R112). -/
  | reset
  deriving DecidableEq, Repr

/-- The unit, and beside it what the host drives. The spec's own state is Q, R, STATUS, WQ and WR
(10_state.md R19 to R30); `ports` and `pending` are the inputs of the step (10_state.md R18,
assumption log entry 1); `resets` is the model's own (assumption log entry 4). -/
structure State where
  /-- Result register Q (10_state.md R19). Read through `readQ` only: what it holds while `wq` is false
  is never shown (assumption log entry 3). -/
  q : Word
  /-- Result register R (10_state.md R20). Read through `readR` only. -/
  r : Word
  /-- STATUS (10_state.md R21); its fields are read and written by Machine/Flags.lean. -/
  status : StatusWord
  /-- Hidden bit WQ: a command has written Q since reset (10_state.md R29). -/
  wq : Bool
  /-- Hidden bit WR: a command has written R since reset (10_state.md R29). -/
  wr : Bool
  /-- How many resets have been taken since `State.reset`. The model's own field: it selects the free
  contents of Q and R after each reset, and no rule of the spec reads it. -/
  resets : Nat
  /-- The values on ports CMD, PA and PB as the last command sampled them. -/
  ports : Command
  /-- What the host does next, oldest first. Each step takes the first. -/
  pending : List HostAction
  deriving DecidableEq, Repr

/-- The faults of the unit: none. Every failure of a command is a next state with STATUS.ERR and
STATUS.STICKY written, and the unit is ready for the next command (60_exceptions.md R103). The type has
no constructor, so a step that faults is ruled out by its type: safe (assumption log entry 18). -/
inductive Fault where
  deriving DecidableEq, Repr

/-- The refusals of the model. -/
inductive Refusal where
  /-- Raised by exec for a command that has no meaning yet, by its mnemonic. Safe: the model stops where
  the unit goes on. No command is left in this case. -/
  | notModelled (mnemonic : String)
  deriving DecidableEq, Repr

/-- The unit right after reset (10_state.md R30, 70_reset_and_hazards.md R113): STATUS = 0, WQ = WR = 0.
Q and R are unspecified: their stored fields are 0 (DESIGN CHOICE, assumption log entry 3) and are not
shown until written. The host drives nothing: its ports are 0 and it has issued nothing
(DESIGN CHOICE, assumption log entries 6 and 7). -/
def State.reset : State :=
  { q := 0, r := 0, status := 0, wq := false, wr := false, resets := 0,
    ports := { cmd := 0, pa := 0, pb := 0 }, pending := [] }

end Sys2Proof.Machine
end

