-- ==== Sys2Proof/Machine/Flags.lean ====
section
/-! DEFINITION. The fields of STATUS (10_state.md R21): how each is read and written, and how CMP
computes its three flags. The unit has no carry, borrow or overflow flag (10_state.md R28). -/

namespace Sys2Proof.Machine

/-- STATUS.ERR, bits [1:0] (10_state.md R21, R22). -/
def errField (st : StatusWord) : BitVec 2 := st.extractLsb' 0 2

/-- STATUS.EQ, bit 2 (10_state.md R21, R23). -/
def eqFlag (st : StatusWord) : Bool := st.getLsbD 2

/-- STATUS.LT, bit 3 (10_state.md R21, R23). -/
def ltFlag (st : StatusWord) : Bool := st.getLsbD 3

/-- STATUS.GT, bit 4 (10_state.md R21, R23). -/
def gtFlag (st : StatusWord) : Bool := st.getLsbD 4

/-- STATUS.STICKY, bit 5 (10_state.md R21, R24). -/
def stickyFlag (st : StatusWord) : Bool := st.getLsbD 5

/-- STATUS[31:6], reserved (10_state.md R25). -/
def reservedField (st : StatusWord) : BitVec 26 := st.extractLsb' 6 26

/-- `STATUS.ERR <- e`; every other bit is kept. -/
def withErr (e : BitVec 2) (st : StatusWord) : StatusWord :=
  (st &&& ~~~(3#32)) ||| e.setWidth 32

/-- Write bit `k` of STATUS; every other bit is kept. -/
def withBit (k : Nat) (b : Bool) (st : StatusWord) : StatusWord :=
  if b then st ||| (1#32 <<< k) else st &&& ~~~(1#32 <<< k)

/-- `STATUS.EQ <- b`. -/
def withEq (b : Bool) (st : StatusWord) : StatusWord := withBit 2 b st

/-- `STATUS.LT <- b`. -/
def withLt (b : Bool) (st : StatusWord) : StatusWord := withBit 3 b st

/-- `STATUS.GT <- b`. -/
def withGt (b : Bool) (st : StatusWord) : StatusWord := withBit 4 b st

/-- `STATUS.STICKY <- b`. -/
def withSticky (b : Bool) (st : StatusWord) : StatusWord := withBit 5 b st

/-- The three flag writes of CMP, in the true unsigned order (40_compare.md R63, 90_conflicts.md C1). -/
def withCompare (a b : Nat) (st : StatusWord) : StatusWord :=
  withGt (decide (a > b)) (withLt (decide (a < b)) (withEq (decide (a = b)) st))

end Sys2Proof.Machine
end

