-- ==== Sys2Proof/Machine/Operands.lean ====
section
/-! DEFINITION. Widths as numbers, the limb view of a value, and every operand form: what a command
reads from the ports and the result registers. Values are natural numbers (00_scope.md R11). -/

namespace Sys2Proof

/-- W in bits (00_scope.md R6). -/
def Width.bits : Width → Nat
  | .w128 => 128
  | .w256 => 256

/-- The half-width H = W/2 (00_scope.md R7). -/
def Width.half (w : Width) : Nat := w.bits / 2

/-- The quarter width M = W/4 (00_scope.md R8). -/
def Width.quarter (w : Width) : Nat := w.bits / 4

end Sys2Proof

namespace Sys2Proof.Machine

/-- v.hi of a W-bit value (00_scope.md R13). -/
def hiLimb (w : Width) (v : Nat) : Nat := v / 2 ^ w.half

/-- v.lo of a W-bit value (00_scope.md R13). -/
def loLimb (w : Width) (v : Nat) : Nat := v % 2 ^ w.half

/-- The value of register Q: what a command wrote, or the free contents Q was left with by the last
reset (10_state.md R19, R29; 93_implementation_defined.md U1). -/
def readQ (s : State) : Word := if s.wq then s.q else Config.resetQ s.resets

/-- The value of register R: what a DIVREM wrote, or the free contents R was left with by the last
reset (10_state.md R20, R29; 93_implementation_defined.md U1). -/
def readR (s : State) : Word := if s.wr then s.r else Config.resetR s.resets

/-- `src(SA)` (30_encoding.md R51). -/
def sourceA (a : SrcA) (s : State) : Word :=
  match a with
  | .pa => s.ports.pa
  | .q => readQ s
  | .r => readR s

/-- `src(SB)` (30_encoding.md R51). -/
def sourceB (b : SrcB) (s : State) : Word :=
  match b with
  | .pb => s.ports.pb
  | .q => readQ s
  | .r => readR s

/-- opA: bits [W-1:0] of the selected source (30_encoding.md R51, 92_eei_decisions.md D29). -/
def operandA (w : Width) (a : SrcA) (s : State) : Nat := (sourceA a s).toNat % 2 ^ w.bits

/-- opB: bits [W-1:0] of the selected source (30_encoding.md R51, 92_eei_decisions.md D29). -/
def operandB (w : Width) (b : SrcB) (s : State) : Nat := (sourceB b s).toNat % 2 ^ w.bits

end Sys2Proof.Machine
end

