-- ==== Sys2Proof/Machine/Ops.lean ====
section
/-! DEFINITION. The operations the commands share: writing a result register, completing, failing,
taking reset, and sampling the ports. The unit has no memory (20_memory.md R34). Failing is all there is
of taking an exception (60_exceptions.md R103), and there is nothing to return from (R104). -/

namespace Sys2Proof.Machine

/-- What a meaning answers. -/
abbrev Result := Host.Outcome State Fault Refusal

/-- `Q <- zext_256(v)`; WQ is set (10_state.md R29, R31). -/
def writeQ (v : Nat) (s : State) : State := { s with q := BitVec.ofNat 256 v, wq := true }

/-- `R <- zext_256(v)`; WR is set (10_state.md R29, R31). -/
def writeR (v : Nat) (s : State) : State := { s with r := BitVec.ofNat 256 v, wr := true }

/-- `STATUS.ERR <- 0`: the command completes (10_state.md R22). -/
def complete (s : State) : State := { s with status := withErr 0 s.status }

/-- The two error kinds of the unit (60_exceptions.md R99). -/
inductive ErrorKind where
  | divisionByZero
  | illegalCommand
  deriving DecidableEq, Repr

/-- The value an error writes to STATUS.ERR (60_exceptions.md R99). -/
def errorCode : ErrorKind → BitVec 2
  | .divisionByZero => 1
  | .illegalCommand => 2

/-- `raise E` (00_scope.md R12, 60_exceptions.md R103): STATUS.ERR and STATUS.STICKY are written and
nothing else. No state is saved, no mode changes and control goes nowhere. -/
def raise (e : ErrorKind) (s : State) : State :=
  { s with status := withSticky true (withErr (errorCode e) s.status) }

/-- A command that writes the result `v` to Q and completes. -/
def resultInQ (v : Nat) (s : State) : Result := .next (complete (writeQ v s))

/-- The shape of a binary command with its result in Q: both operands are read, then Q is written. -/
def binaryToQ (w : Width) (a : SrcA) (b : SrcB) (f : Nat → Nat → Nat) (s : State) : Result :=
  resultInQ (f (operandA w a s) (operandB w b s)) s

/-- The shape of a unary command with its result in Q: opB is not formed (30_encoding.md R52). -/
def unaryToQ (w : Width) (a : SrcA) (f : Nat → Nat) (s : State) : Result :=
  resultInQ (f (operandA w a s)) s

/-- Reset, taken between commands (70_reset_and_hazards.md R113): every piece of the unit's state gets
its value of 10_state.md R30, and Q and R get new free contents. What the host drives is not the unit's:
the ports keep their values and `rest` is still to come (assumption log entry 5). -/
def takeReset (rest : List HostAction) (s : State) : State :=
  { q := State.reset.q, r := State.reset.r, status := State.reset.status, wq := State.reset.wq,
    wr := State.reset.wr, resets := s.resets + 1, ports := s.ports, pending := rest }

/-- The start of a command's step: the three ports are sampled once (10_state.md R18), and `rest` is
what the host does afterwards. -/
def samplePorts (c : Command) (rest : List HostAction) (s : State) : State :=
  { s with ports := c, pending := rest }

end Sys2Proof.Machine
end

