-- ==== Sys2Proof/Machine/Bitwise.lean ====
section
/-! DEFINITION. AND, OR, XOR and NOT (41_bitwise.md). -/

namespace Sys2Proof.Machine

/-- `not_W(v) = 2^W - 1 - v` (00_scope.md R11). -/
def complement (w : Width) (v : Nat) : Nat := 2 ^ w.bits - 1 - v

/-- AND (41_bitwise.md R67). -/
def execAnd (w : Width) (a : SrcA) (b : SrcB) (s : State) : Result :=
  binaryToQ w a b (fun x y => x &&& y) s

/-- OR (41_bitwise.md R68). -/
def execOr (w : Width) (a : SrcA) (b : SrcB) (s : State) : Result :=
  binaryToQ w a b (fun x y => x ||| y) s

/-- XOR (41_bitwise.md R69). -/
def execXor (w : Width) (a : SrcA) (b : SrcB) (s : State) : Result :=
  binaryToQ w a b (fun x y => x ^^^ y) s

/-- NOT (41_bitwise.md R70), unary. -/
def execNot (w : Width) (a : SrcA) (s : State) : Result :=
  unaryToQ w a (complement w) s

end Sys2Proof.Machine
end

