-- ==== Sys2Proof/Machine/AddSub.lean ====
section
/-! DEFINITION. ADD, SUB and NEG (43_add_sub.md), which wrap modulo 2^W and record no carry (R85). -/

namespace Sys2Proof.Machine

/-- `(opA + opB) mod 2^W` (43_add_sub.md R79). -/
def sumMod (w : Width) (x y : Nat) : Nat := (x + y) % 2 ^ w.bits

/-- `(opA - opB) mod 2^W` with the non-negative remainder (43_add_sub.md R81), over the integers. -/
def differenceMod (w : Width) (x y : Nat) : Nat := (((x : Int) - (y : Int)) % (2 ^ w.bits : Int)).toNat

/-- `(not_W(opA) + 1) mod 2^W` (43_add_sub.md R83). -/
def negateMod (w : Width) (x : Nat) : Nat := (complement w x + 1) % 2 ^ w.bits

/-- ADD (43_add_sub.md R79). -/
def execAdd (w : Width) (a : SrcA) (b : SrcB) (s : State) : Result :=
  binaryToQ w a b (sumMod w) s

/-- SUB (43_add_sub.md R81). -/
def execSub (w : Width) (a : SrcA) (b : SrcB) (s : State) : Result :=
  binaryToQ w a b (differenceMod w) s

/-- NEG (43_add_sub.md R83), unary. -/
def execNeg (w : Width) (a : SrcA) (s : State) : Result :=
  unaryToQ w a (negateMod w) s

end Sys2Proof.Machine
end

