-- ==== Sys2Proof/Machine/Compare.lean ====
section
/-! DEFINITION. CMP (40_compare.md). -/

namespace Sys2Proof.Machine

/-- CMP (40_compare.md R63): EQ, LT and GT are written, ERR becomes 0; Q, R and STICKY are unchanged. -/
def execCmp (w : Width) (a : SrcA) (b : SrcB) (s : State) : Result :=
  .next (complete { s with status := withCompare (operandA w a s) (operandB w b s) s.status })

end Sys2Proof.Machine
end

