-- ==== Sys2Proof/Machine/Divide.lean ====
section
/-! DEFINITION. DIVREM and BITLEN (45_divide.md). -/

namespace Sys2Proof.Machine

/-- DIVREM (45_divide.md R91): DivisionByZero when opB = 0, with Q and R kept (R98); else the quotient
to Q and the remainder to R. Both operands are read before either write (70_reset_and_hazards.md R119). -/
def execDivrem (w : Width) (a : SrcA) (b : SrcB) (s : State) : Result :=
  let dividend := operandA w a s
  let divisor := operandB w b s
  if divisor = 0 then .next (raise .divisionByZero s)
  else .next (complete (writeR (dividend % divisor) (writeQ (dividend / divisor) s)))

/-- `bitlen(v)`: the 1-based index of the highest set bit, 0 for the zero value (45_divide.md R95). -/
def bitLength (v : Nat) : Nat := if v = 0 then 0 else Nat.log2 v + 1

/-- BITLEN (45_divide.md R96), unary. -/
def execBitlen (w : Width) (a : SrcA) (s : State) : Result :=
  unaryToQ w a bitLength s

end Sys2Proof.Machine
end

