-- ==== Sys2Proof/Machine/Multiply.lean ====
section
/-! DEFINITION. MUL (44_multiply.md). -/

namespace Sys2Proof.Machine

/-- `(opA * opB) mod 2^W`: the low half of the product (44_multiply.md R86). -/
def productMod (w : Width) (x y : Nat) : Nat := (x * y) % 2 ^ w.bits

/-- MUL (44_multiply.md R86); R is not written. -/
def execMul (w : Width) (a : SrcA) (b : SrcB) (s : State) : Result :=
  binaryToQ w a b (productMod w) s

end Sys2Proof.Machine
end

