-- ==== Sys2Proof/Machine/Shift.lean ====
section
/-! DEFINITION. SHL and SHR (42_shift.md). -/

namespace Sys2Proof.Machine

/-- The shift amount is too large: `(opB.hi != 0) or (s >= W)` with `s = opB.lo` (42_shift.md R72). -/
def amountOverflows (w : Width) (amount : Nat) : Bool :=
  decide (hiLimb w amount ≠ 0) || decide (w.bits ≤ loLimb w amount)

/-- The result of SHL (42_shift.md R73): 0 on overflow, else the value times 2^s modulo 2^W. -/
def shiftLeft (w : Width) (v amount : Nat) : Nat :=
  if amountOverflows w amount then 0 else (v * 2 ^ loLimb w amount) % 2 ^ w.bits

/-- The result of SHR (42_shift.md R75): 0 on overflow, else the value divided by 2^s. It is logical,
never sign-extending (R77). -/
def shiftRight (w : Width) (v amount : Nat) : Nat :=
  if amountOverflows w amount then 0 else v / 2 ^ loLimb w amount

/-- SHL (42_shift.md R73). -/
def execShl (w : Width) (a : SrcA) (b : SrcB) (s : State) : Result :=
  binaryToQ w a b (shiftLeft w) s

/-- SHR (42_shift.md R75). -/
def execShr (w : Width) (a : SrcA) (b : SrcB) (s : State) : Result :=
  binaryToQ w a b (shiftRight w) s

end Sys2Proof.Machine
end

