-- ==== Sys2Proof/Machine/Dispatch.lean ====
section
/-! DEFINITION. One arm per command: exec calls the command's meaning. The unary commands do not use
their SB field (30_encoding.md R52). -/

namespace Sys2Proof.Machine

def exec (i : Instr) (s : State) : Host.Outcome State Fault Refusal :=
  match i with
  | .cmp w a b => Sys2Proof.Machine.execCmp w a b s
  | .and w a b => Sys2Proof.Machine.execAnd w a b s
  | .or w a b => Sys2Proof.Machine.execOr w a b s
  | .xor w a b => Sys2Proof.Machine.execXor w a b s
  | .not w a _ => Sys2Proof.Machine.execNot w a s
  | .shl w a b => Sys2Proof.Machine.execShl w a b s
  | .shr w a b => Sys2Proof.Machine.execShr w a b s
  | .add w a b => Sys2Proof.Machine.execAdd w a b s
  | .sub w a b => Sys2Proof.Machine.execSub w a b s
  | .neg w a _ => Sys2Proof.Machine.execNeg w a s
  | .mul w a b => Sys2Proof.Machine.execMul w a b s
  | .divrem w a b => Sys2Proof.Machine.execDivrem w a b s
  | .bitlen w a _ => Sys2Proof.Machine.execBitlen w a s

end Sys2Proof.Machine
end

