-- ==== Sys2Proof/Machine/Issue.lean ====
section
/-! DEFINITION. What each of the host's actions makes the unit do, and what it does when the host does
nothing. Step.lean only calls these. -/

namespace Sys2Proof.Machine

/-- One command, its ports already sampled: an illegal word fails with IllegalCommand before any operand
is read; a legal one runs (60_exceptions.md R101, R105). -/
def runCommand (s : State) : Result :=
  match decode s.ports.cmd with
  | .legal i => exec i s
  | .illegal _ => .next (raise .illegalCommand s)

/-- One action of the host (70_reset_and_hazards.md R113, R116). -/
def perform (action : HostAction) (rest : List HostAction) (s : State) : Result :=
  match action with
  | .issue c => runCommand (samplePorts c rest s)
  | .reset => .next (takeReset rest s)

/-- With nothing issued the unit waits and holds its state (60_exceptions.md R112,
70_reset_and_hazards.md R114, assumption log entry 2). -/
def idle (s : State) : Result := .next s

/-- `s` with `word` as the command the next step runs, its operand ports driven with the values `s`
has on PA and PB, and everything the host already had pending after it (assumption log entry 6). -/
def issueFirst (word : CmdWord) (s : State) : State :=
  { s with pending := .issue { s.ports with cmd := word } :: s.pending }

end Sys2Proof.Machine
end

