-- ==== Sys2Proof/Machine/Step.lean ====
section
/-! DEFINITION. The step: the host's next action is taken, or the unit is idle. The unit has no program
counter and fetches nothing (10_state.md R27); the host presents each command. -/

namespace Sys2Proof.Machine

/-- One step of the unit (10_state.md R17, 20_memory.md R42). -/
def step (s : State) : Host.Outcome State Fault Refusal :=
  match s.pending with
  | [] => idle s
  | action :: rest => perform action rest s

/-- `s` with the table's word presented by the host as the next command (assumption log entry 6). -/
def State.withFetchWord (s : State) (nbits w : Nat) : State := issueFirst (tableWord nbits w) s

end Sys2Proof.Machine
end

