-- ==== Sys2Proof/Machine/HostInterface.lean ====
section
/-! DEFINITION. How the host sees the unit: the 64-bit words of a port or register, the values a host
drives, its reads of Q, R and STATUS, and what it reads after a comparison. A read has no side effect
(20_memory.md R40): each is a function of the state and gives no new state. -/

namespace Sys2Proof.Machine

/-- 64-bit word `k` of a port or register value, bits [64k+63:64k] (20_memory.md R36). -/
def portLane (k : Fin 4) (v : Word) : BitVec 64 := v.extractLsb' (64 * k.val) 64

/-- A value built from four 64-bit words, the most significant in word 3 (20_memory.md R36). -/
def ofLanes (w3 w2 w1 w0 : BitVec 64) : Word := w3 ++ w2 ++ w1 ++ w0

/-- A native scalar driven on a port: `zext_256(s)` (20_memory.md R36, 40_compare.md R66,
41_bitwise.md R71). -/
def ofScalar {n : Nat} (x : BitVec n) : Word := x.setWidth 256

/-- The host's read of Q between commands (10_state.md R19); before any command has written Q it is the
free contents (93_implementation_defined.md U1). -/
def hostReadQ (s : State) : Word := readQ s

/-- The host's read of R between commands (10_state.md R20). -/
def hostReadR (s : State) : Word := readR s

/-- The host's read of STATUS (10_state.md R21, R26). -/
def hostReadStatus (s : State) : StatusWord := s.status

/-- The six comparisons a host can read from STATUS after a CMP (30_encoding.md R61). -/
inductive Comparison where
  | eq
  | ne
  | lt
  | le
  | gt
  | ge
  deriving DecidableEq, Repr

/-- The boolean result of a comparison (30_encoding.md R61). -/
def comparisonResult (c : Comparison) (s : State) : Bool :=
  match c with
  | .eq => eqFlag (hostReadStatus s)
  | .ne => !eqFlag (hostReadStatus s)
  | .lt => ltFlag (hostReadStatus s)
  | .le => ltFlag (hostReadStatus s) || eqFlag (hostReadStatus s)
  | .gt => gtFlag (hostReadStatus s)
  | .ge => gtFlag (hostReadStatus s) || eqFlag (hostReadStatus s)

/-- The result of the pseudo-instruction DIV, read after its DIVREM (30_encoding.md R60). -/
def divResult (s : State) : Word := hostReadQ s

/-- The result of the pseudo-instruction REM, read after its DIVREM (30_encoding.md R60). -/
def remResult (s : State) : Word := hostReadR s

end Sys2Proof.Machine
end

