-- ==== Sys2Proof/Machine/Assembler.lean ====
section
/-! DEFINITION. The assembler's view of the command set (30_encoding.md R58 to R62): written commands,
pseudo-instructions, their words, and the disassembler. The unit does not run any of it; the host does. -/

namespace Sys2Proof.Machine

/-- Every mnemonic: the thirteen commands (30_encoding.md R53), then the pseudo-instructions for
division (R60) and comparison (R61). -/
inductive Mnemonic where
  | cmp | and | or | xor | not | shl | shr | add | sub | neg | mul | divrem | bitlen
  | div | rem
  | eq | ne | lt | le | gt | ge
  deriving DecidableEq, Repr

/-- All mnemonics, in that order. -/
def allMnemonics : List Mnemonic :=
  [.cmp, .and, .or, .xor, .not, .shl, .shr, .add, .sub, .neg, .mul, .divrem, .bitlen,
   .div, .rem, .eq, .ne, .lt, .le, .gt, .ge]

/-- A mnemonic as it is printed. -/
def mnemonicText : Mnemonic → String
  | .cmp => "CMP" | .and => "AND" | .or => "OR" | .xor => "XOR" | .not => "NOT"
  | .shl => "SHL" | .shr => "SHR" | .add => "ADD" | .sub => "SUB" | .neg => "NEG"
  | .mul => "MUL" | .divrem => "DIVREM" | .bitlen => "BITLEN"
  | .div => "DIV" | .rem => "REM"
  | .eq => "EQ" | .ne => "NE" | .lt => "LT" | .le => "LE" | .gt => "GT" | .ge => "GE"

/-- NOT, NEG and BITLEN are written with one operand (30_encoding.md R52, R58). -/
def isUnary : Mnemonic → Bool
  | .not | .neg | .bitlen => true
  | .cmp | .and | .or | .xor | .shl | .shr | .add | .sub | .mul | .divrem => false
  | .div | .rem | .eq | .ne | .lt | .le | .gt | .ge => false

/-- OP of a mnemonic; a pseudo-instruction has that of the command it assembles to
(30_encoding.md R53, R60, R61). -/
def opcodeOf : Mnemonic → Nat
  | .cmp => 0x01 | .and => 0x02 | .or => 0x03 | .xor => 0x04 | .not => 0x05
  | .shl => 0x06 | .shr => 0x07 | .add => 0x08 | .sub => 0x09 | .neg => 0x0A
  | .mul => 0x0B | .divrem => 0x0C | .bitlen => 0x0D
  | .div | .rem => 0x0C
  | .eq | .ne | .lt | .le | .gt | .ge => 0x01

/-- A written command `MNEMONIC.w a, b`, or `MNEMONIC.w a` with `b` not written (30_encoding.md R58). -/
structure AsmLine where
  mnemonic : Mnemonic
  width : Width
  a : SrcA
  b : SrcB
  deriving DecidableEq, Repr

/-- WD, SA and SB as numbers (30_encoding.md R58, R59). -/
def widthNumber : Width → Nat
  | .w128 => 0
  | .w256 => 1

/-- `A`, `Q`, `R` are SA = 0, 1, 2 (30_encoding.md R58). -/
def srcANumber : SrcA → Nat
  | .pa => 0
  | .q => 1
  | .r => 2

/-- `B`, `Q`, `R` are SB = 0, 1, 2 (30_encoding.md R58). -/
def srcBNumber : SrcB → Nat
  | .pb => 0
  | .q => 1
  | .r => 2

/-- The SB number a line is assembled with: 0 for a unary mnemonic (30_encoding.md R59). -/
def assembledB (l : AsmLine) : Nat := if isUnary l.mnemonic then 0 else srcBNumber l.b

/-- The word of a line, by the formula of 30_encoding.md R59. -/
def assemble (l : AsmLine) : CmdWord :=
  BitVec.ofNat 32
    (opcodeOf l.mnemonic ||| widthNumber l.width <<< 6 ||| srcANumber l.a <<< 7 ||| assembledB l <<< 9)

/-- The command a line stands for (30_encoding.md R53, R60, R61): DIV and REM are DIVREM, and the
comparisons are CMP. -/
def commandOf (l : AsmLine) : Instr :=
  match l.mnemonic with
  | .cmp | .eq | .ne | .lt | .le | .gt | .ge => .cmp l.width l.a l.b
  | .and => .and l.width l.a l.b
  | .or => .or l.width l.a l.b
  | .xor => .xor l.width l.a l.b
  | .not => .not l.width l.a .pb
  | .shl => .shl l.width l.a l.b
  | .shr => .shr l.width l.a l.b
  | .add => .add l.width l.a l.b
  | .sub => .sub l.width l.a l.b
  | .neg => .neg l.width l.a .pb
  | .mul => .mul l.width l.a l.b
  | .divrem | .div | .rem => .divrem l.width l.a l.b
  | .bitlen => .bitlen l.width l.a .pb

/-- A legal command as a line; never a pseudo-instruction, and the SB field of a unary command is not
shown (30_encoding.md R62). -/
def lineOf : Instr → AsmLine
  | .cmp w a b => ⟨.cmp, w, a, b⟩
  | .and w a b => ⟨.and, w, a, b⟩
  | .or w a b => ⟨.or, w, a, b⟩
  | .xor w a b => ⟨.xor, w, a, b⟩
  | .not w a _ => ⟨.not, w, a, .pb⟩
  | .shl w a b => ⟨.shl, w, a, b⟩
  | .shr w a b => ⟨.shr, w, a, b⟩
  | .add w a b => ⟨.add, w, a, b⟩
  | .sub w a b => ⟨.sub, w, a, b⟩
  | .neg w a _ => ⟨.neg, w, a, .pb⟩
  | .mul w a b => ⟨.mul, w, a, b⟩
  | .divrem w a b => ⟨.divrem, w, a, b⟩
  | .bitlen w a _ => ⟨.bitlen, w, a, .pb⟩

/-- `128` or `256` (30_encoding.md R58). -/
def widthText : Width → String
  | .w128 => "128"
  | .w256 => "256"

/-- `A`, `Q` or `R` (30_encoding.md R58). -/
def srcAText : SrcA → String
  | .pa => "A"
  | .q => "Q"
  | .r => "R"

/-- `B`, `Q` or `R` (30_encoding.md R58). -/
def srcBText : SrcB → String
  | .pb => "B"
  | .q => "Q"
  | .r => "R"

/-- A line as text: `MNEMONIC.w a, b` or `MNEMONIC.w a` (30_encoding.md R58). -/
def printLine (l : AsmLine) : String :=
  mnemonicText l.mnemonic ++ "." ++ widthText l.width ++ " " ++ srcAText l.a ++
    (if isUnary l.mnemonic then "" else ", " ++ srcBText l.b)

/-- One hexadecimal digit, in capitals (assumption log entry 16). -/
def hexDigit (n : Nat) : Char := if n < 10 then Char.ofNat (48 + n) else Char.ofNat (55 + n)

/-- The last `n` hexadecimal digits of a number, most significant first. -/
def hexDigits : Nat → Nat → List Char
  | 0, _ => []
  | n + 1, v => hexDigit (v / 16 ^ n % 16) :: hexDigits n v

/-- The disassembler (30_encoding.md R62): a legal word is its command, an illegal one `.word` and its
eight hexadecimal digits. -/
def disassemble (c : CmdWord) : String :=
  match decode c with
  | .legal i => printLine (lineOf i)
  | .illegal _ => ".word 0x" ++ String.ofList (hexDigits 8 c.toNat)

/-- Drop the blanks at the front of a text. -/
def skipBlanks : List Char → List Char
  | ' ' :: cs => skipBlanks cs
  | cs => cs

/-- The letters at the front of a text, in capitals, and what follows them: mnemonics are
case-insensitive (30_encoding.md R58). -/
def takeLetters : List Char → List Char × List Char
  | [] => ([], [])
  | c :: cs =>
    if c.isAlpha then
      let (letters, rest) := takeLetters cs
      (c.toUpper :: letters, rest)
    else ([], c :: cs)

/-- The mnemonic whose letters these are. -/
def findMnemonic (letters : List Char) : Option Mnemonic :=
  allMnemonics.find? fun m => (mnemonicText m).toList == letters

/-- `.128` or `.256` at the front of a text. -/
def parseWidth : List Char → Option (Width × List Char)
  | '.' :: '1' :: '2' :: '8' :: cs => some (.w128, cs)
  | '.' :: '2' :: '5' :: '6' :: cs => some (.w256, cs)
  | _ => none

/-- Operand A at the front of a text. -/
def parseSrcA : List Char → Option (SrcA × List Char)
  | 'A' :: cs => some (.pa, cs)
  | 'Q' :: cs => some (.q, cs)
  | 'R' :: cs => some (.r, cs)
  | _ => none

/-- Operand B at the front of a text. -/
def parseSrcB : List Char → Option (SrcB × List Char)
  | 'B' :: cs => some (.pb, cs)
  | 'Q' :: cs => some (.q, cs)
  | 'R' :: cs => some (.r, cs)
  | _ => none

/-- `, b` at the front of a text, after blanks (assumption log entry 16). -/
def parseSecondOperand (cs : List Char) : Option (SrcB × List Char) :=
  match skipBlanks cs with
  | ',' :: rest => parseSrcB (skipBlanks rest)
  | _ => none

/-- A written command at the front of a text, and what follows it (30_encoding.md R58). At least one
blank separates the width from the first operand (assumption log entry 16). -/
def parseCommand (text : List Char) : Option (AsmLine × List Char) := do
  let (letters, afterName) := takeLetters (skipBlanks text)
  let m ← findMnemonic letters
  let (w, afterWidth) ← parseWidth afterName
  match afterWidth with
  | ' ' :: operands =>
    let (a, afterA) ← parseSrcA (skipBlanks operands)
    if isUnary m then some (⟨m, w, a, .pb⟩, afterA)
    else
      let (b, afterB) ← parseSecondOperand afterA
      some (⟨m, w, a, b⟩, afterB)
  | _ => none

/-- A line that holds a written command and nothing else. -/
def parseLine (text : String) : Option AsmLine := do
  let (l, rest) ← parseCommand text.toList
  if skipBlanks rest = [] then some l else none

/-- The value of a hexadecimal digit, in either case (assumption log entry 16). -/
def hexValue (c : Char) : Option Nat :=
  if '0' ≤ c ∧ c ≤ '9' then some (c.toNat - 48)
  else if 'A' ≤ c ∧ c ≤ 'F' then some (c.toNat - 55)
  else if 'a' ≤ c ∧ c ≤ 'f' then some (c.toNat - 87)
  else none

/-- The hexadecimal number at the front of a text, as a number and not a byte string (30_encoding.md
R58). `_` separates words (95_test_vectors.md) and has no value. -/
def parseHexDigits : List Char → Nat → Nat × List Char
  | [], acc => (acc, [])
  | c :: cs, acc =>
    match hexValue c with
    | some d => parseHexDigits cs (acc * 16 + d)
    | none => if c = '_' then parseHexDigits cs acc else (acc, c :: cs)

/-- `0x` and a hexadecimal number of a port's width. R58 of 30_encoding.md writes `<hex>` and does not say
whether the prefix is needed: its example has it, and some command forms of 95_test_vectors.md section 1 write
a bare `0` or `1`. The model asks for a lower-case `0x` and refuses a bare number, a power such as `2^255`
and a value that does not fit the port (DESIGN CHOICE, assumption log entry 16). -/
def parseHex : List Char → Option (Word × List Char)
  | '0' :: 'x' :: c :: cs =>
    if (hexValue c).isSome then
      let (v, rest) := parseHexDigits (c :: cs) 0
      if v < 2 ^ 256 then some (BitVec.ofNat 256 v, rest) else none
    else none
  | _ => none

/-- The value written for port PA, 0 where none is written (assumption log entry 16). -/
def parsePA : List Char → Option (Word × List Char)
  | 'P' :: 'A' :: '=' :: cs => parseHex cs
  | cs => some (0, cs)

/-- The value written for port PB; 0 where none is written. R58 of 30_encoding.md writes a comma between PA
and PB and shows PB alone without one. The model also reads PB with no comma after PA, and PB after a comma
with no PA (DESIGN CHOICE, assumption log entry 16). -/
def parsePB (cs : List Char) : Option (Word × List Char) :=
  match skipBlanks cs with
  | ',' :: rest =>
    match skipBlanks rest with
    | 'P' :: 'B' :: '=' :: digits => parseHex digits
    | _ => none
  | 'P' :: 'B' :: '=' :: digits => parseHex digits
  | rest => some (0, rest)

/-- `.word 0x` and a hexadecimal number of 32 bits: a command word written as itself, as a disassembler
prints an illegal one (30_encoding.md R62) and as 95_test_vectors.md program P3 writes it (assumption log
entry 16). -/
def parseWord : List Char → Option (CmdWord × List Char)
  | '.' :: 'w' :: 'o' :: 'r' :: 'd' :: ' ' :: cs => do
    let (v, rest) ← parseHex (skipBlanks cs)
    if v.toNat < 2 ^ 32 then some (v.setWidth 32, rest) else none
  | _ => none

/-- The command word a line of a program begins with, and what follows it: a written command, or a word. -/
def parseCommandWord (text : List Char) : Option (CmdWord × List Char) :=
  match parseWord (skipBlanks text) with
  | some found => some found
  | none => (parseCommand text).map fun found => (assemble found.1, found.2)

/-- A line of a program: a written command, then its port values after a semicolon where they are
written (30_encoding.md R58). It gives the command the host issues. A semicolon with no port value after it
is read too, as no values written (DESIGN CHOICE, assumption log entry 16). -/
def parseProgramLine (text : String) : Option Command := do
  let (word, afterCommand) ← parseCommandWord text.toList
  match skipBlanks afterCommand with
  | ';' :: portsText =>
    let (pa, afterA) ← parsePA (skipBlanks portsText)
    let (pb, rest) ← parsePB afterA
    if skipBlanks rest = [] then some { cmd := word, pa := pa, pb := pb } else none
  | [] => some { cmd := word, pa := 0, pb := 0 }
  | _ => none

/-- What the host reads as a line's result after its command has run: nothing for a CMP itself, a flag
for a comparison (30_encoding.md R61), R for REM and Q for every other (30_encoding.md R60). -/
inductive LineResult where
  | none
  | flag (b : Bool)
  | value (v : Word)
  deriving DecidableEq, Repr

/-- The result of a line, read from the state after its command. -/
def lineResult (m : Mnemonic) (s : State) : LineResult :=
  match m with
  | .cmp => .none
  | .eq => .flag (comparisonResult .eq s)
  | .ne => .flag (comparisonResult .ne s)
  | .lt => .flag (comparisonResult .lt s)
  | .le => .flag (comparisonResult .le s)
  | .gt => .flag (comparisonResult .gt s)
  | .ge => .flag (comparisonResult .ge s)
  | .rem => .value (remResult s)
  | .div => .value (divResult s)
  | .and | .or | .xor | .not | .shl | .shr | .add | .sub | .neg | .mul | .divrem | .bitlen =>
    .value (hostReadQ s)

end Sys2Proof.Machine
end

