-- ==== Sys2Proof/Machine/Limb.lean ====
section
/-! DEFINITION. The source's limb-level algorithms, which the spec gives as informative (00_scope.md
R14). No command runs them: the commands are the closed formulas. They stand here so that their
agreement with the closed formulas can be stated. A value at level `k` is `64 * 2^k` bits wide: level 0
is a native word, level 1 is W = 128 and level 2 is W = 256, whose limbs are W = 128 values (R7, R13).
Operations on native words are taken as given (assumption log entry 17). -/

namespace Sys2Proof.Machine

/-- The number of bits of a value at level `k`. -/
def limbBits (k : Nat) : Nat := 64 * 2 ^ k

/-- The level of a width: 1 for W = 128, 2 for W = 256. -/
def limbLevel : Width → Nat
  | .w128 => 1
  | .w256 => 2

/-- The upper limb of a value at level `k + 1`. -/
def upper (k v : Nat) : Nat := v / 2 ^ limbBits k

/-- The lower limb of a value at level `k + 1`. -/
def lower (k v : Nat) : Nat := v % 2 ^ limbBits k

/-- The limb pair `{hi, lo}` as a value at level `k + 1`. -/
def limbPair (k hi lo : Nat) : Nat := hi * 2 ^ limbBits k + lo

/-- Equality by limbs (40_compare.md R64). -/
def limbEq : Nat → Nat → Nat → Bool
  | 0, a, b => decide (a = b)
  | k + 1, a, b => limbEq k (upper k a) (upper k b) && limbEq k (lower k a) (lower k b)

/-- Less-than by limbs: `hi` first, on tie `lo` (40_compare.md R64). -/
def limbLt : Nat → Nat → Nat → Bool
  | 0, a, b => decide (a < b)
  | k + 1, a, b =>
    limbLt k (upper k a) (upper k b) ||
      (limbEq k (upper k a) (upper k b) && limbLt k (lower k a) (lower k b))

/-- Greater-than by limbs (40_compare.md R64). -/
def limbGt : Nat → Nat → Nat → Bool
  | 0, a, b => decide (a > b)
  | k + 1, a, b =>
    limbGt k (upper k a) (upper k b) ||
      (limbEq k (upper k a) (upper k b) && limbGt k (lower k a) (lower k b))

/-- A bitwise operator applied limb by limb (41_bitwise.md R67 to R69). -/
def limbwise (f : Nat → Nat → Nat) : Nat → Nat → Nat → Nat
  | 0, a, b => f a b
  | k + 1, a, b =>
    limbPair k (limbwise f k (upper k a) (upper k b)) (limbwise f k (lower k a) (lower k b))

/-- "`~` inverts each limb independently" (41_bitwise.md R70). -/
def limbNot : Nat → Nat → Nat
  | 0, a => 2 ^ limbBits 0 - 1 - a
  | k + 1, a => limbPair k (limbNot k (upper k a)) (limbNot k (lower k a))

/-- Addition with the carry found by a comparison of limbs (43_add_sub.md R80). -/
def limbAdd : Nat → Nat → Nat → Nat
  | 0, a, b => (a + b) % 2 ^ limbBits 0
  | k + 1, a, b =>
    let lo := limbAdd k (lower k a) (lower k b)
    let carry := if limbLt k lo (lower k a) then 1 else 0
    limbPair k (limbAdd k (limbAdd k (upper k a) (upper k b)) carry) lo

/-- Subtraction with the borrow found by a comparison of limbs (43_add_sub.md R82). -/
def limbSub : Nat → Nat → Nat → Nat
  | 0, a, b => (a + 2 ^ limbBits 0 - b) % 2 ^ limbBits 0
  | k + 1, a, b =>
    let lo := limbSub k (lower k a) (lower k b)
    let borrow := if limbGt k lo (lower k a) then 1 else 0
    limbPair k (limbSub k (limbSub k (upper k a) (upper k b)) borrow) lo

/-- Which way a limb shift goes. -/
inductive ShiftDirection where
  | left
  | right
  deriving DecidableEq, Repr

/-- The shift of a limb at level `k` that moves bits across the boundary the other way. -/
def ShiftDirection.opposite : ShiftDirection → ShiftDirection
  | .left => .right
  | .right => .left

/-- The five cases of the limb shifts (42_shift.md R74 for left, R76 for right). The amount is a value
at the same level as the shifted value. The overflow test is that of R72. -/
def limbShift : Nat → ShiftDirection → Nat → Nat → Nat
  | 0, .left, a, s => (a * 2 ^ s) % 2 ^ limbBits 0
  | 0, .right, a, s => a / 2 ^ s
  | k + 1, dir, a, amount =>
    let h := limbBits k
    let s := lower k amount
    if upper k amount ≠ 0 ∨ 2 * h ≤ s then 0
    else if s = 0 then a
    else if s < h then
      match dir with
      | .left =>
        limbPair k (limbShift k .left (upper k a) s ||| limbShift k .right (lower k a) (h - s))
          (limbShift k .left (lower k a) s)
      | .right =>
        limbPair k (limbShift k .right (upper k a) s)
          (limbShift k .right (lower k a) s ||| limbShift k .left (upper k a) (h - s))
    else if s = h then
      match dir with
      | .left => limbPair k (lower k a) 0
      | .right => limbPair k 0 (upper k a)
    else
      match dir with
      | .left => limbPair k (limbShift k .left (lower k a) (s - h)) 0
      | .right => limbPair k 0 (limbShift k .right (upper k a) (s - h))

/-- Quarter-limb `i` of a value, `m` bits each, 0 the least significant (44_multiply.md R87). -/
def quarterLimb (m i v : Nat) : Nat := v / 2 ^ (i * m) % 2 ^ m

/-- Column `k` of the cross-product matrix (44_multiply.md R88): the low halves of the products with
`i + j = k` and the high halves of those with `i + j = k - 1`. `times` gives one partial product. -/
def productColumn (times : Nat → Nat → Nat) (m a b k : Nat) : Nat :=
  ((List.range 4).map fun i =>
    ((List.range 4).map fun j =>
      let p := times (quarterLimb m i a) (quarterLimb m j b)
      (if i + j = k then p % 2 ^ m else 0) + (if i + j + 1 = k then p / 2 ^ m else 0)).sum).sum

/-- Fold the columns into a result, least significant first, each carry into the next more significant
column (44_multiply.md R88). `place` is the bit position of the first column. -/
def foldColumns (m : Nat) : List Nat → Nat → Nat → Nat
  | [], _, _ => 0
  | col :: cols, place, carry =>
    (col + carry) % 2 ^ m * 2 ^ place + foldColumns m cols (place + m) ((col + carry) / 2 ^ m)

/-- The schoolbook product of two values with quarter width `m`, given the partial product. -/
def schoolbook (times : Nat → Nat → Nat) (m a b : Nat) : Nat :=
  foldColumns m ((List.range 4).map (productColumn times m a b)) 0 0

/-- The multiply of each width (44_multiply.md R87, R88): at W = 128 the partial products are native,
at W = 256 they are W = 128 multiplies of two 64-bit values. -/
def limbMultiply (w : Width) (a b : Nat) : Nat :=
  match w with
  | .w128 => schoolbook (fun x y => x * y) 32 a b
  | .w256 => schoolbook (schoolbook (fun x y => x * y) 32) 64 a b

/-- The highest set bit among the low `n` bits, as a 1-based index, scanning from the top. -/
def scanBits : Nat → Nat → Nat
  | 0, _ => 0
  | n + 1, v => if v.testBit n then n + 1 else scanBits n v

/-- Bit length by limbs: the upper limb first, then the lower (45_divide.md R95). -/
def limbBitLength : Nat → Nat → Nat
  | 0, v => scanBits (limbBits 0) v
  | k + 1, v =>
    if upper k v ≠ 0 then limbBits k + limbBitLength k (upper k v) else limbBitLength k (lower k v)

/-- The loop of restoring division (45_divide.md R93). `n` iterations remain, so the quotient-bit marker
`m` is `2^(n-1)`, and the loop ends when it has been shifted down to 0. -/
def restoringLoop : Nat → Nat → Nat → Nat → Nat × Nat
  | 0, _, q, r => (q, r)
  | n + 1, d, q, r =>
    if d ≤ r then restoringLoop n (d / 2) (q ||| 2 ^ n) (r - d) else restoringLoop n (d / 2) q r

/-- divmod with the source's special cases in order (45_divide.md R92, R93): none where it fails with
DivisionByZero. Bit lengths are those of the limb form. -/
def limbDivmod (w : Width) (a b : Nat) : Option (Nat × Nat) :=
  if b = 0 then none
  else if b = 1 then some (a, 0)
  else if limbEq (limbLevel w) a b then some (1, 0)
  else if a = 0 ∨ limbLt (limbLevel w) a b then some (0, a)
  else
    let k := limbBitLength (limbLevel w) a - limbBitLength (limbLevel w) b
    some (restoringLoop (k + 1) (b * 2 ^ k) 0 a)

end Sys2Proof.Machine
end

