-- ==== Sys2Proof/Safety.lean ====
section
/-! DEFINITION. The terms claims are made in: legality of a word as the spec words it, what completing
and failing mean for the whole state, the invariant, the host's duty, and when two states look alike. -/

namespace Sys2Proof.Machine

/-- A field of a word as the spec defines `v[hi:lo]`: `(v div 2^lo) mod 2^(hi-lo+1)` (00_scope.md R11). -/
def fieldValue (hi lo v : Nat) : Nat := v / 2 ^ lo % 2 ^ (hi - lo + 1)

/-- A command word is illegal (30_encoding.md R54), in the spec's own arithmetic. -/
def illegalWord (c : CmdWord) : Prop :=
  fieldValue 31 11 c.toNat ≠ 0 ∨
  (fieldValue 5 0 c.toNat = 0x00 ∨ fieldValue 5 0 c.toNat ≥ 0x0E) ∨
  fieldValue 8 7 c.toNat = 3 ∨
  fieldValue 10 9 c.toNat = 3

/-- The width of a command. -/
def widthOf : Instr → Width
  | .cmp w _ _ | .and w _ _ | .or w _ _ | .xor w _ _ | .not w _ _ | .shl w _ _ | .shr w _ _ => w
  | .add w _ _ | .sub w _ _ | .neg w _ _ | .mul w _ _ | .divrem w _ _ | .bitlen w _ _ => w

/-- The source of operand A. -/
def sourceAOf : Instr → SrcA
  | .cmp _ a _ | .and _ a _ | .or _ a _ | .xor _ a _ | .not _ a _ | .shl _ a _ | .shr _ a _ => a
  | .add _ a _ | .sub _ a _ | .neg _ a _ | .mul _ a _ | .divrem _ a _ | .bitlen _ a _ => a

/-- The source of operand B, none for a unary command, which does not form opB (30_encoding.md R52). -/
def sourceBOf : Instr → Option SrcB
  | .cmp _ _ b | .and _ _ b | .or _ _ b | .xor _ _ b | .shl _ _ b | .shr _ _ b => some b
  | .add _ _ b | .sub _ _ b | .mul _ _ b | .divrem _ _ b => some b
  | .not _ _ _ | .neg _ _ _ | .bitlen _ _ _ => none

/-- The command is a CMP. -/
def isCmp : Instr → Bool
  | .cmp _ _ _ => true
  | .and _ _ _ | .or _ _ _ | .xor _ _ _ | .not _ _ _ | .shl _ _ _ | .shr _ _ _ => false
  | .add _ _ _ | .sub _ _ _ | .neg _ _ _ | .mul _ _ _ | .divrem _ _ _ | .bitlen _ _ _ => false

/-- The command is a DIVREM. -/
def isDivrem : Instr → Bool
  | .divrem _ _ _ => true
  | .cmp _ _ _ | .and _ _ _ | .or _ _ _ | .xor _ _ _ | .not _ _ _ | .shl _ _ _ | .shr _ _ _ => false
  | .add _ _ _ | .sub _ _ _ | .neg _ _ _ | .mul _ _ _ | .bitlen _ _ _ => false

/-- The command is a DIVREM whose divisor is zero: the one legal command that fails (60_exceptions.md
R100, R102). -/
def dividesByZero (i : Instr) (s : State) : Prop :=
  match i with
  | .divrem w _ b => operandB w b s = 0
  | .cmp _ _ _ | .and _ _ _ | .or _ _ _ | .xor _ _ _ | .not _ _ _ | .shl _ _ _ | .shr _ _ _ => False
  | .add _ _ _ | .sub _ _ _ | .neg _ _ _ | .mul _ _ _ | .bitlen _ _ _ => False

/-- The host's side of the state, and the reset count: what no command changes. -/
def SameSurroundings (s t : State) : Prop :=
  t.ports = s.ports ∧ t.pending = s.pending ∧ t.resets = s.resets

/-- Q and R and their hidden bits are as before. -/
def SameResults (s t : State) : Prop :=
  t.q = s.q ∧ t.wq = s.wq ∧ t.r = s.r ∧ t.wr = s.wr

/-- EQ, LT and GT are as before (10_state.md R23). -/
def SameFlags (s t : State) : Prop :=
  eqFlag t.status = eqFlag s.status ∧ ltFlag t.status = ltFlag s.status ∧
    gtFlag t.status = gtFlag s.status

/-- Every bit of STATUS above ERR is as before: EQ, LT, GT, STICKY and the reserved bits. -/
def StatusKeptButErr (s t : State) : Prop :=
  ∀ i, 2 ≤ i → t.status.getLsbD i = s.status.getLsbD i

/-- The command completed with the value `v` in Q: Q is `zext_256(v)`, WQ is set, ERR is 0, and
everything else is as before. -/
structure CompletesWithQ (s : State) (v : Nat) (t : State) : Prop where
  q_value : t.q.toNat = v
  wq_set : t.wq = true
  err_ok : errField t.status = 0
  status_kept : StatusKeptButErr s t
  r_kept : t.r = s.r ∧ t.wr = s.wr
  surroundings : SameSurroundings s t

/-- The command failed with the code `e`: ERR is `e`, STICKY is set, and everything else is as before
(60_exceptions.md R103). -/
structure FailsWith (s : State) (e : BitVec 2) (t : State) : Prop where
  err_code : errField t.status = e
  sticky_set : stickyFlag t.status = true
  flags_kept : SameFlags s t
  reserved_kept : reservedField t.status = reservedField s.status
  results_kept : SameResults s t
  surroundings : SameSurroundings s t

/-- Exactly one of EQ, LT and GT is 1 (10_state.md R23). -/
def exactlyOneFlag (st : StatusWord) : Prop :=
  (eqFlag st = true ∧ ltFlag st = false ∧ gtFlag st = false) ∨
  (eqFlag st = false ∧ ltFlag st = true ∧ gtFlag st = false) ∨
  (eqFlag st = false ∧ ltFlag st = false ∧ gtFlag st = true)

/-- None of EQ, LT and GT is 1, as after reset (10_state.md R23). -/
def noFlag (st : StatusWord) : Prop :=
  eqFlag st = false ∧ ltFlag st = false ∧ gtFlag st = false

/-- What holds of the unit in every state a run from reset reaches: the reserved bits read 0 (10_state.md
R25), ERR is never 3 (R22, 93_implementation_defined.md U10), a recorded error is also in STICKY (R24),
at most one comparison flag is set (R23), and R has been written only if Q has, since only DIVREM writes R
and it writes both (R20, 45_divide.md R97). -/
structure State.Inv (s : State) : Prop where
  reserved_zero : reservedField s.status = 0
  err_legal : errField s.status ≠ 3
  error_sticks : errField s.status ≠ 0 → stickyFlag s.status = true
  flags_legal : exactlyOneFlag s.status ∨ noFlag s.status
  wr_only_after_wq : s.wr = true → s.wq = true

/-- The host's duty (70_reset_and_hazards.md R115): a command does not select Q before some command has
written Q, nor R before some DIVREM has written R. -/
def readsOnlyWritten (i : Instr) (s : State) : Prop :=
  (sourceAOf i = .q ∨ sourceBOf i = some .q → s.wq = true) ∧
  (sourceAOf i = .r ∨ sourceBOf i = some .r → s.wr = true)

/-- Two states nothing outside can tell apart: all the same but for what the stored Q and R hold while
they are unwritten, which is never shown. -/
structure LooksLike (s t : State) : Prop where
  q_read : readQ t = readQ s
  r_read : readR t = readR s
  status : t.status = s.status
  written : t.wq = s.wq ∧ t.wr = s.wr
  surroundings : SameSurroundings s t

/-- Two states that agree on everything that has been written, whatever the unspecified contents of an
unwritten Q or R are in either: the reset counts, which select them, may differ. -/
structure AgreesOnWritten (s t : State) : Prop where
  q_written : s.wq = true → t.q = s.q
  r_written : s.wr = true → t.r = s.r
  status : t.status = s.status
  written : t.wq = s.wq ∧ t.wr = s.wr
  ports : t.ports = s.ports
  pending : t.pending = s.pending

/-- Two states that agree on everything a command of width W can use of its sources: the low W bits of
PA, PB, Q and R (30_encoding.md R51). -/
structure AgreesBelow (w : Width) (s t : State) : Prop where
  pa : t.ports.pa.toNat % 2 ^ w.bits = s.ports.pa.toNat % 2 ^ w.bits
  pb : t.ports.pb.toNat % 2 ^ w.bits = s.ports.pb.toNat % 2 ^ w.bits
  q : (readQ t).toNat % 2 ^ w.bits = (readQ s).toNat % 2 ^ w.bits
  r : (readR t).toNat % 2 ^ w.bits = (readR s).toNat % 2 ^ w.bits
  status : t.status = s.status

end Sys2Proof.Machine
end

