-- ==== Sys2Proof/Certificates/Slice0/Obligations.lean ====
section
/-! DEFINITION. The statements for the provers, from the numbered rules of spec/. The unit has no memory
(20_memory.md R34), so no statement speaks of memory. `CompletesWithQ`, `FailsWith` and the other terms
are those of Safety.lean: each says what holds of the whole next state, so it holds a frame. -/

open Sys2Proof Sys2Proof.Machine

/-! ### Reset, the step, and the host's actions -/

/-- R30: the values of STATUS, WQ and WR after reset, at power-up and after every reset action. -/
def Obligations.ResetClearsStatusAndWrittenBits : Prop :=
  (State.reset.status = 0 ∧ State.reset.wq = false ∧ State.reset.wr = false) ∧
  ∀ (s : State) (rest : List HostAction), s.pending = .reset :: rest →
    ∃ t, step s = .next t ∧ errField t.status = 0 ∧ noFlag t.status ∧ stickyFlag t.status = false ∧
      reservedField t.status = 0 ∧ t.wq = false ∧ t.wr = false

/-- Q and R are unspecified after reset: the host reads the free contents of that reset, which may differ
from those of the reset before. The free contents are the model's choice (log entries 3 and 4); that
reset leaves the host's ports and its later actions alone is log entry 5. -/
def Obligations.ResetLeavesQAndRUnspecified : Prop :=
  ∀ (s : State) (rest : List HostAction), s.pending = .reset :: rest →
    ∃ t, step s = .next t ∧ hostReadQ t = Config.resetQ (s.resets + 1) ∧
      hostReadR t = Config.resetR (s.resets + 1) ∧ t.ports = s.ports ∧ t.pending = rest

/-- The invariant holds after reset. -/
def Obligations.ResetStateMeetsInvariant : Prop := State.reset.Inv

/-- From every state that meets the invariant, every step gives a state that meets it: ERR is never 3
(U10), reserved bits read 0 (R25), an error is always in STICKY (R24), at most one flag is set (R23), and
R is written only after Q (R20, R97). -/
def Obligations.EveryStepKeepsInvariant : Prop :=
  ∀ s t : State, s.Inv → step s = .next t → t.Inv

/-- No state stops the unit: every failure is reported in STATUS and the unit is ready for the next
command (R103, R104), a reset is taken (R113), and an idle unit holds its state (R112, R114). That nothing
stops the unit is the model's inference (log entry 18, DEDUCED), and so is the idle step (log entry 2,
DEDUCED). -/
def Obligations.EveryStepAnswersNextState : Prop := ∀ s : State, ∃ t, step s = .next t

/-- A step runs the decoded command, with the ports sampled from the host's action. -/
def Obligations.StepRunsDecodedCommand : Prop :=
  ∀ (s : State) (c : Command) (rest : List HostAction) (i : Instr),
    s.pending = .issue c :: rest → decode c.cmd = .legal i →
    step s = exec i { s with ports := c, pending := rest }

/-- With no command issued the unit waits and holds its state (R112, R114; log entry 2). -/
def Obligations.IdleUnitHoldsState : Prop := ∀ s : State, s.pending = [] → step s = .next s

/-- R42: the host's actions are taken one at a time, in order. After as many steps as there are actions
in `first`, exactly the actions after it are left, and nothing before that point depends on them. The queue
of actions is the model's own form of the host (log entry 1, DESIGN CHOICE), and a reset stands in it as an
action between commands (log entry 5, DEDUCED). -/
def Obligations.ActionsRunInIssueOrder : Prop :=
  ∀ (s : State) (first later : List HostAction), s.pending = first ++ later →
    ∃ t : State,
      Host.Core.run Sys2Proof.core first.length s = .next t ∧ t.pending = later ∧
      Host.Core.run Sys2Proof.core first.length ({ s with pending := first } : State) =
        .next ({ t with pending := [] } : State)

/-! ### Encoding -/

/-- R56: decoding is total. A word is a legal command exactly when none of R54's conditions holds. -/
def Obligations.DecodeAcceptsExactlyLegalWords : Prop :=
  ∀ c : CmdWord, (∃ i, decode c = .legal i) ↔ ¬ illegalWord c

/-- Decode and encode agree both ways, on all commands and all 2^32 words. -/
def Obligations.DecodeAndEncodeAgree : Prop :=
  ∀ (c : CmdWord) (i : Instr), decode c = .legal i ↔ c = encode i

/-- Command words of 95_test_vectors.md section 4, one for each command. -/
def Obligations.SpecWordsDecodeToTheirCommands : Prop :=
  decode 0x000004C1 = .legal (.cmp .w256 .q .r) ∧ decode 0x00000002 = .legal (.and .w128 .pa .pb) ∧
  decode 0x00000043 = .legal (.or .w256 .pa .pb) ∧ decode 0x000004C4 = .legal (.xor .w256 .q .r) ∧
  decode 0x00000145 = .legal (.not .w256 .r .pb) ∧ decode 0x00000006 = .legal (.shl .w128 .pa .pb) ∧
  decode 0x000000C7 = .legal (.shr .w256 .q .pb) ∧ decode 0x00000088 = .legal (.add .w128 .q .pb) ∧
  decode 0x00000489 = .legal (.sub .w128 .q .r) ∧ decode 0x000000CA = .legal (.neg .w256 .q .pb) ∧
  decode 0x0000008B = .legal (.mul .w128 .q .pb) ∧ decode 0x000000CC = .legal (.divrem .w256 .q .pb) ∧
  decode 0x0000004D = .legal (.bitlen .w256 .pa .pb)

/-- R59: the word of a written command, and the command it decodes to; a pseudo-instruction's word is
that of DIVREM or CMP (R60, R61). -/
def Obligations.AssembledWordIsTheFormulaAndDecodes : Prop :=
  ∀ l : AsmLine,
    (assemble l).toNat = opcodeOf l.mnemonic + 2 ^ 6 * (if l.width = .w256 then 1 else 0) +
      2 ^ 7 * srcANumber l.a + 2 ^ 9 * (if isUnary l.mnemonic then 0 else srcBNumber l.b) ∧
    decode (assemble l) = .legal (commandOf l)

/-- R62: a legal word disassembles to a text that reads back as its command, and the text assembles to
the word again where SB is printed; an illegal one becomes `.word` with eight digits. -/
def Obligations.DisassemblyReadsBack : Prop :=
  ∀ c : CmdWord,
    (∀ i, decode c = .legal i →
      parseLine (disassemble c) = some (lineOf i) ∧
      (sourceBOf i ≠ none → assemble (lineOf i) = c)) ∧
    (illegalWord c → disassemble c = ".word 0x" ++ String.ofList (hexDigits 8 c.toNat))

/-! ### Operands -/

/-- R51: the operands at width W. -/
def Obligations.OperandsAreLowBitsOfSelectedSource : Prop :=
  ∀ (w : Width) (s : State),
    operandA w .pa s = s.ports.pa.toNat % 2 ^ w.bits ∧
    operandB w .pb s = s.ports.pb.toNat % 2 ^ w.bits ∧
    (s.wq = true → operandA w .q s = s.q.toNat % 2 ^ w.bits ∧
      operandB w .q s = s.q.toNat % 2 ^ w.bits) ∧
    (s.wr = true → operandA w .r s = s.r.toNat % 2 ^ w.bits ∧
      operandB w .r s = s.r.toNat % 2 ^ w.bits)

/-- R51: bits [255:W] of the selected source are ignored, in the zero-divisor and shift-amount tests
too (92_eei_decisions.md D29). -/
def Obligations.BitsAboveWidthAreIgnored : Prop :=
  ∀ (i : Instr) (s t : State), AgreesBelow (widthOf i) s t →
    ∃ s' t', exec i s = .next s' ∧ exec i t = .next t' ∧ t'.status = s'.status ∧
      (isCmp i = false → ¬ dividesByZero i s → t'.q = s'.q) ∧
      (isDivrem i = true → ¬ dividesByZero i s → t'.r = s'.r)

/-- R52: NOT, NEG and BITLEN use neither SB nor PB. -/
def Obligations.UnaryCommandsIgnoreSbAndPb : Prop :=
  ∀ (w : Width) (a : SrcA) (b b' : SrcB) (pb' : Word) (s : State),
    ∀ pair ∈ [(Instr.not w a b, Instr.not w a b'), (Instr.neg w a b, Instr.neg w a b'),
        (Instr.bitlen w a b, Instr.bitlen w a b')],
      ∃ t, exec pair.1 s = .next t ∧
        exec pair.2 { s with ports := { s.ports with pb := pb' } } =
          .next { t with ports := { t.ports with pb := pb' } }

/-- R119: all reads of a command happen before its writes, so a source may be a destination. -/
def Obligations.SourceMayEqualDestination : Prop :=
  ∀ (w : Width) (s : State),
    (∃ t, exec (.add w .q .q) s = .next t ∧
      t.q.toNat = 2 * (readQ s).toNat % 2 ^ w.bits) ∧
    (∃ t, exec (.mul w .q .q) s = .next t ∧
      t.q.toNat = (readQ s).toNat ^ 2 % 2 ^ w.bits) ∧
    ((readR s).toNat % 2 ^ w.bits ≠ 0 →
      ∃ t, exec (.divrem w .q .r) s = .next t ∧
        t.q.toNat = (readQ s).toNat % 2 ^ w.bits / ((readR s).toNat % 2 ^ w.bits) ∧
        t.r.toNat = (readQ s).toNat % 2 ^ w.bits % ((readR s).toNat % 2 ^ w.bits))

/-! ### What each command does -/

/-- R63, R65: CMP completes with the three flags of the unsigned order, exactly one of them set. -/
def Obligations.CmpSetsExactlyTheFlagOfTheOrder : Prop :=
  ∀ (w : Width) (a : SrcA) (b : SrcB) (s : State),
    ∃ t, exec (.cmp w a b) s = .next t ∧
      (eqFlag t.status = true ↔ operandA w a s = operandB w b s) ∧
      (ltFlag t.status = true ↔ operandA w a s < operandB w b s) ∧
      (gtFlag t.status = true ↔ operandA w a s > operandB w b s) ∧
      exactlyOneFlag t.status ∧ errField t.status = 0 ∧
      stickyFlag t.status = stickyFlag s.status ∧
      reservedField t.status = reservedField s.status ∧ SameResults s t ∧ SameSurroundings s t

/-- R67, R68, R69: AND, OR and XOR combine the operands bit by bit. -/
def Obligations.BitwiseCommandsCombineBits : Prop :=
  ∀ (w : Width) (a : SrcA) (b : SrcB) (s : State),
    (∃ t v, exec (.and w a b) s = .next t ∧ CompletesWithQ s v t ∧ v < 2 ^ w.bits ∧
      ∀ k, k < w.bits → v.testBit k = ((operandA w a s).testBit k && (operandB w b s).testBit k)) ∧
    (∃ t v, exec (.or w a b) s = .next t ∧ CompletesWithQ s v t ∧ v < 2 ^ w.bits ∧
      ∀ k, k < w.bits → v.testBit k = ((operandA w a s).testBit k || (operandB w b s).testBit k)) ∧
    (∃ t v, exec (.xor w a b) s = .next t ∧ CompletesWithQ s v t ∧ v < 2 ^ w.bits ∧
      ∀ k, k < w.bits → v.testBit k = ((operandA w a s).testBit k ^^ (operandB w b s).testBit k))

/-- R70: NOT inverts bits [W-1:0] and no other. -/
def Obligations.NotInvertsTheBitsOfTheWidth : Prop :=
  ∀ (w : Width) (a : SrcA) (b : SrcB) (s : State),
    ∃ t v, exec (.not w a b) s = .next t ∧ CompletesWithQ s v t ∧
      v + operandA w a s = 2 ^ w.bits - 1 ∧
      ∀ k, k < w.bits → v.testBit k = !(operandA w a s).testBit k

/-- R72, R73: SHL, with the amount's limbs as bit fields of opB. -/
def Obligations.ShlShiftsOrGivesZero : Prop :=
  ∀ (w : Width) (a : SrcA) (b : SrcB) (s : State),
    let amountHi := fieldValue (w.bits - 1) w.half (operandB w b s)
    let amountLo := fieldValue (w.half - 1) 0 (operandB w b s)
    ∃ t v, exec (.shl w a b) s = .next t ∧ CompletesWithQ s v t ∧
      (amountHi ≠ 0 ∨ w.bits ≤ amountLo → v = 0) ∧
      (amountHi = 0 → amountLo < w.bits → v = operandA w a s * 2 ^ amountLo % 2 ^ w.bits)

/-- R72, R75: SHR, with the amount's limbs as bit fields of opB. -/
def Obligations.ShrShiftsOrGivesZero : Prop :=
  ∀ (w : Width) (a : SrcA) (b : SrcB) (s : State),
    let amountHi := fieldValue (w.bits - 1) w.half (operandB w b s)
    let amountLo := fieldValue (w.half - 1) 0 (operandB w b s)
    ∃ t v, exec (.shr w a b) s = .next t ∧ CompletesWithQ s v t ∧
      (amountHi ≠ 0 ∨ w.bits ≤ amountLo → v = 0) ∧
      (amountHi = 0 → amountLo < w.bits → v = operandA w a s / 2 ^ amountLo)

/-- R78: both shifts equal the unconditional formulas; the amount does not wrap modulo W. -/
def Obligations.ShiftsEqualUnconditionalFormulas : Prop :=
  ∀ (w : Width) (a : SrcA) (b : SrcB) (s : State),
    (∃ t, exec (.shl w a b) s = .next t ∧
      CompletesWithQ s (operandA w a s * 2 ^ operandB w b s % 2 ^ w.bits) t) ∧
    (∃ t, exec (.shr w a b) s = .next t ∧
      CompletesWithQ s (operandA w a s / 2 ^ operandB w b s) t)

/-- R79: ADD wraps modulo 2^W. -/
def Obligations.AddWrapsModuloTheWidth : Prop :=
  ∀ (w : Width) (a : SrcA) (b : SrcB) (s : State),
    ∃ t, exec (.add w a b) s = .next t ∧
      CompletesWithQ s ((operandA w a s + operandB w b s) % 2 ^ w.bits) t

/-- R81: SUB wraps modulo 2^W; opA < opB gives opA - opB + 2^W. -/
def Obligations.SubWrapsModuloTheWidth : Prop :=
  ∀ (w : Width) (a : SrcA) (b : SrcB) (s : State),
    ∃ t, exec (.sub w a b) s = .next t ∧
      CompletesWithQ s (if operandA w a s < operandB w b s
        then operandA w a s + 2 ^ w.bits - operandB w b s
        else operandA w a s - operandB w b s) t

/-- R83: NEG is the two's complement modulo 2^W. -/
def Obligations.NegIsTwosComplement : Prop :=
  ∀ (w : Width) (a : SrcA) (b : SrcB) (s : State),
    ∃ t, exec (.neg w a b) s = .next t ∧
      CompletesWithQ s ((2 ^ w.bits - operandA w a s) % 2 ^ w.bits) t

/-- R84: the laws of ADD, SUB and NEG. -/
def Obligations.AddSubNegLaws : Prop :=
  ∀ (w : Width) (x y z : Nat), x < 2 ^ w.bits → y < 2 ^ w.bits → z < 2 ^ w.bits →
    sumMod w x y = sumMod w y x ∧
    sumMod w (sumMod w x y) z = sumMod w x (sumMod w y z) ∧
    sumMod w x 0 = x ∧
    sumMod w x (negateMod w x) = 0 ∧
    differenceMod w x y = sumMod w x (negateMod w y)

/-- R85: ADD records no carry, and a host finds it by comparing the sum with the operand PA still holds.
The encodable form of the comparison is CMP A, Q read through GT (log entry 10). -/
def Obligations.HostFindsCarryByComparing : Prop :=
  ∀ (w : Width) (b : SrcB) (s : State),
    ∃ t u, exec (.add w .pa b) s = .next t ∧ exec (.cmp w .pa .q) t = .next u ∧
      (comparisonResult .gt u = true ↔ 2 ^ w.bits ≤ operandA w .pa s + operandB w b s)

/-- R86: MUL keeps the low W bits of the product. -/
def Obligations.MulKeepsTheLowHalf : Prop :=
  ∀ (w : Width) (a : SrcA) (b : SrcB) (s : State),
    ∃ t, exec (.mul w a b) s = .next t ∧
      CompletesWithQ s (operandA w a s * operandB w b s % 2 ^ w.bits) t

/-- R90, and the corner case of R86 that a power of two multiplies as SHL shifts. -/
def Obligations.MultiplyLawsAndShiftByPowerOfTwo : Prop :=
  ∀ (w : Width) (x y k : Nat), x < 2 ^ w.bits → y < 2 ^ w.bits → k < w.bits →
    productMod w x y = productMod w y x ∧ productMod w x 1 = x ∧ productMod w x 0 = 0 ∧
    productMod w x (2 ^ k) = shiftLeft w x k

/-- R91, R94, R97: DIVREM on a non-zero divisor writes both results, which the pseudo-instructions DIV
and REM read (R60). -/
def Obligations.DivremWritesQuotientAndRemainder : Prop :=
  ∀ (w : Width) (a : SrcA) (b : SrcB) (s : State), operandB w b s ≠ 0 →
    ∃ t, exec (.divrem w a b) s = .next t ∧
      (divResult t).toNat * operandB w b s + (remResult t).toNat = operandA w a s ∧
      (remResult t).toNat < operandB w b s ∧
      t.q.toNat = operandA w a s / operandB w b s ∧ t.r.toNat = operandA w a s % operandB w b s ∧
      t.wq = true ∧ t.wr = true ∧ errField t.status = 0 ∧ StatusKeptButErr s t ∧ SameSurroundings s t

/-- R98, R100, R103: DIVREM on a zero divisor fails, whatever opA is, and Q and R are kept. -/
def Obligations.DivremByZeroFailsAndKeepsResults : Prop :=
  ∀ (w : Width) (a : SrcA) (b : SrcB) (s : State), operandB w b s = 0 →
    ∃ t, exec (.divrem w a b) s = .next t ∧ FailsWith s 1 t

/-- R95, R96: BITLEN gives the 1-based index of the highest set bit, 0 for zero. -/
def Obligations.BitlenGivesIndexOfHighestBit : Prop :=
  ∀ (w : Width) (a : SrcA) (b : SrcB) (s : State),
    ∃ t n, exec (.bitlen w a b) s = .next t ∧ CompletesWithQ s n t ∧ n ≤ w.bits ∧
      (operandA w a s = 0 → n = 0) ∧
      (1 ≤ operandA w a s → 2 ^ (n - 1) ≤ operandA w a s ∧ operandA w a s < 2 ^ n)

/-! ### Frames and rules of the whole machine -/

/-- The frame of every command. No command changes the host's side or the reserved bits. CMP changes
EQ, LT, GT and ERR only. The ten commands with one result (AND, OR, XOR, NOT, SHL, SHR, ADD, SUB, NEG,
MUL) and BITLEN change Q, WQ and ERR only. DIVREM changes Q, WQ, R, WR and ERR only, and where it fails
STATUS.ERR and STATUS.STICKY only. -/
def Obligations.CommandsChangeOnlyTheirDestinations : Prop :=
  ∀ (i : Instr) (s t : State), exec i s = .next t →
    SameSurroundings s t ∧ reservedField t.status = reservedField s.status ∧
    (isCmp i = true → SameResults s t ∧ stickyFlag t.status = stickyFlag s.status) ∧
    (isCmp i = false → SameFlags s t) ∧
    (isCmp i = false → isDivrem i = false → t.r = s.r ∧ t.wr = s.wr ∧ StatusKeptButErr s t) ∧
    (isDivrem i = true → ¬ dividesByZero i s → StatusKeptButErr s t) ∧
    (isDivrem i = true → dividesByZero i s → SameResults s t)

/-- R102: every legal command but DIVREM with a zero divisor completes with ERR = 0. -/
def Obligations.EveryOtherLegalCommandCompletes : Prop :=
  ∀ (i : Instr) (s : State), ¬ dividesByZero i s →
    ∃ t, exec i s = .next t ∧ errField t.status = 0 ∧ stickyFlag t.status = stickyFlag s.status

/-- R54, R101: an illegal word fails with IllegalCommand and does nothing else, whatever its operands. -/
def Obligations.IllegalWordFailsAndDoesNothingElse : Prop :=
  ∀ (s : State) (c : Command) (rest : List HostAction),
    s.pending = .issue c :: rest → illegalWord c.cmd →
    ∃ t, step s = .next t ∧ FailsWith { s with ports := c, pending := rest } 2 t

/-- R22, R105: ERR describes the most recent command, and legality is checked first. -/
def Obligations.ErrDescribesTheLastCommand : Prop :=
  ∀ (s t : State) (c : Command) (rest : List HostAction),
    s.pending = .issue c :: rest → step s = .next t →
    (illegalWord c.cmd → errField t.status = 2) ∧
    (∀ i, decode c.cmd = .legal i →
      (dividesByZero i { s with ports := c, pending := rest } → errField t.status = 1) ∧
      (¬ dividesByZero i { s with ports := c, pending := rest } → errField t.status = 0))

/-- R23: EQ, LT and GT are written only by a CMP that completes, all at once, exactly one becoming 1;
every other command leaves them, and reset clears them. -/
def Obligations.OnlyCompletedCmpWritesFlags : Prop :=
  (∀ (s t : State) (c : Command) (rest : List HostAction),
    s.pending = .issue c :: rest → step s = .next t →
    (∀ i, decode c.cmd = .legal i → isCmp i = true → exactlyOneFlag t.status) ∧
    ((∀ i, decode c.cmd = .legal i → isCmp i = false) → SameFlags s t)) ∧
  (∀ (s t : State) (rest : List HostAction),
    s.pending = .reset :: rest → step s = .next t → noFlag t.status)

/-- R24: a command sets STICKY when it fails and never clears it; only reset clears it. -/
def Obligations.StickyIsSetByFailureAndClearedByReset : Prop :=
  (∀ (s t : State) (c : Command) (rest : List HostAction),
    s.pending = .issue c :: rest → step s = .next t →
    stickyFlag t.status = (stickyFlag s.status || decide (errField t.status ≠ 0))) ∧
  (∀ (s t : State) (rest : List HostAction),
    s.pending = .reset :: rest → step s = .next t → stickyFlag t.status = false)

/-- R24: one read of STICKY at the end checks every command of a run with no reset in it. -/
def Obligations.OneReadOfStickyChecksTheWholeRun : Prop :=
  ∀ (n k : Nat) (s t u : State), s.Inv → .reset ∉ s.pending → k ≤ n →
    Host.Core.run Sys2Proof.core k s = .next u → Host.Core.run Sys2Proof.core n s = .next t →
    stickyFlag t.status = false → errField u.status = 0

/-- R20: only DIVREM writes R; every other command leaves it unchanged. -/
def Obligations.OnlyDivremWritesR : Prop :=
  ∀ (s t : State) (c : Command) (rest : List HostAction),
    s.pending = .issue c :: rest → step s = .next t →
    (∀ i, decode c.cmd = .legal i → isDivrem i = false) →
    t.r = s.r ∧ t.wr = s.wr ∧ hostReadR t = hostReadR s

/-- R25: no command writes the reserved bits of STATUS, and they read 0 after reset and after every step
from a state in which they do. -/
def Obligations.ReservedStatusBitsAreNeverWritten : Prop :=
  reservedField State.reset.status = 0 ∧
  ∀ s t : State, step s = .next t →
    (reservedField s.status = 0 → reservedField t.status = 0) ∧
    (∀ c rest, s.pending = .issue c :: rest → reservedField t.status = reservedField s.status)

/-- R31, R32: every value a command writes lies in [0, 2^W), so a W = 128 command zeroes bits [255:128]. -/
def Obligations.WrittenValuesFitTheWidth : Prop :=
  ∀ (i : Instr) (s t : State), exec i s = .next t → isCmp i = false → ¬ dividesByZero i s →
    t.wq = true ∧ t.q.toNat < 2 ^ (widthOf i).bits ∧
    (isDivrem i = true → t.wr = true ∧ t.r.toNat < 2 ^ (widthOf i).bits)

/-- What an unwritten register stores is never shown: two states that look alike go on looking alike.
This is about the model's stored placeholder (log entry 3). -/
def Obligations.UnwrittenPlaceholdersAreNeverShown : Prop :=
  ∀ s t : State, LooksLike s t →
    ∃ s' t', step s = .next s' ∧ step t = .next t' ∧ LooksLike s' t'

/-- R115, R29: if the host selects no unwritten register, nothing depends on what reset left in Q and R,
whatever the free contents are (log entries 3 and 4). -/
def Obligations.DutifulHostNeverSeesUnspecifiedContents : Prop :=
  ∀ (s t : State) (c : Command) (rest : List HostAction), AgreesOnWritten s t →
    s.pending = .issue c :: rest → (∀ i, decode c.cmd = .legal i → readsOnlyWritten i s) →
    ∃ s' t', step s = .next s' ∧ step t = .next t' ∧ AgreesOnWritten s' t'

/-! ### The limb algorithms equal the closed formulas -/

/-- R64: comparison by limbs. -/
def Obligations.LimbComparisonIsTheUnsignedOrder : Prop :=
  ∀ (w : Width) (x y : Nat), x < 2 ^ w.bits → y < 2 ^ w.bits →
    limbEq (limbLevel w) x y = decide (x = y) ∧ limbLt (limbLevel w) x y = decide (x < y) ∧
    limbGt (limbLevel w) x y = decide (x > y)

/-- 41_bitwise.md: the limb forms of AND, OR, XOR and NOT. -/
def Obligations.LimbBitwiseIsWholeWidthBitwise : Prop :=
  ∀ (w : Width) (x y : Nat), x < 2 ^ w.bits → y < 2 ^ w.bits →
    limbwise (fun p q => p &&& q) (limbLevel w) x y = (x &&& y) ∧
    limbwise (fun p q => p ||| q) (limbLevel w) x y = (x ||| y) ∧
    limbwise (fun p q => p ^^^ q) (limbLevel w) x y = (x ^^^ y) ∧
    limbNot (limbLevel w) x = complement w x

/-- R74, R76: the limb cases of the shifts. -/
def Obligations.LimbShiftsAreTheShifts : Prop :=
  ∀ (w : Width) (x amount : Nat), x < 2 ^ w.bits → amount < 2 ^ w.bits →
    limbShift (limbLevel w) .left x amount = shiftLeft w x amount ∧
    limbShift (limbLevel w) .right x amount = shiftRight w x amount

/-- R80, R82: carry and borrow propagation between limbs, and negation by limbs. -/
def Obligations.LimbAddSubtractAreModular : Prop :=
  ∀ (w : Width) (x y : Nat), x < 2 ^ w.bits → y < 2 ^ w.bits →
    limbAdd (limbLevel w) x y = sumMod w x y ∧ limbSub (limbLevel w) x y = differenceMod w x y ∧
    limbAdd (limbLevel w) (limbNot (limbLevel w) x) 1 = negateMod w x

/-- R87, R88: the quarter-limb schoolbook multiply with column accumulation. -/
def Obligations.SchoolbookMultiplyIsTheLowProduct : Prop :=
  ∀ (w : Width) (x y : Nat), x < 2 ^ w.bits → y < 2 ^ w.bits →
    limbMultiply w x y = productMod w x y

/-- R92, R93: the special cases in the source's order and the restoring loop give the floor quotient and
the remainder. -/
def Obligations.RestoringDivisionIsFloorDivision : Prop :=
  ∀ (w : Width) (x y : Nat), x < 2 ^ w.bits → y < 2 ^ w.bits →
    limbDivmod w x y = if y = 0 then none else some (x / y, x % y)

/-- R95: the limb form of the bit length, upper limb first, is the 1-based index of the highest set bit,
0 for zero, at most W, and the function BITLEN uses. -/
def Obligations.LimbBitLengthIsBitLength : Prop :=
  ∀ (w : Width) (x : Nat), x < 2 ^ w.bits →
    limbBitLength (limbLevel w) x = bitLength x ∧ bitLength x ≤ w.bits ∧ (x = 0 → bitLength x = 0) ∧
    ∀ n, 1 ≤ x → (bitLength x = n ↔ 1 ≤ n ∧ 2 ^ (n - 1) ≤ x ∧ x < 2 ^ n)

/-! ### What the host reads and drives -/

/-- R61: the six comparisons each assemble to CMP, and the host reads their results from STATUS after
it. -/
def Obligations.ComparisonsReadTheOrderFromStatus : Prop :=
  ∀ (w : Width) (a : SrcA) (b : SrcB) (s : State),
    (∀ m ∈ [Mnemonic.eq, .ne, .lt, .le, .gt, .ge],
      decode (assemble ⟨m, w, a, b⟩) = .legal (.cmp w a b)) ∧
    ∃ t, exec (.cmp w a b) s = .next t ∧
      comparisonResult .eq t = decide (operandA w a s = operandB w b s) ∧
      comparisonResult .ne t = decide (operandA w a s ≠ operandB w b s) ∧
      comparisonResult .lt t = decide (operandA w a s < operandB w b s) ∧
      comparisonResult .le t = decide (operandA w a s ≤ operandB w b s) ∧
      comparisonResult .gt t = decide (operandA w a s > operandB w b s) ∧
      comparisonResult .ge t = decide (operandA w a s ≥ operandB w b s)

/-- R36: word k of a value is bits [64k+63:64k], a value is built from its four words, and a 64-bit
scalar is word 0 with the others 0. -/
def Obligations.PortWordsArePlacesOfAValue : Prop :=
  (∀ v : Word, v.toNat = (portLane 3 v).toNat * 2 ^ 192 + (portLane 2 v).toNat * 2 ^ 128 +
    (portLane 1 v).toNat * 2 ^ 64 + (portLane 0 v).toNat) ∧
  (∀ w3 w2 w1 w0 : BitVec 64, portLane 3 (ofLanes w3 w2 w1 w0) = w3 ∧
    portLane 2 (ofLanes w3 w2 w1 w0) = w2 ∧ portLane 1 (ofLanes w3 w2 w1 w0) = w1 ∧
    portLane 0 (ofLanes w3 w2 w1 w0) = w0) ∧
  (∀ x : BitVec 64, ofLanes 0 0 0 x = ofScalar x)

/-- R66: a value with `hi ≠ 0` compares greater than every native scalar the host zero-extends. -/
def Obligations.WideValueExceedsEveryScalar : Prop :=
  ∀ (w : Width) (a : SrcA) (x : BitVec w.half) (s : State), s.ports.pb = ofScalar x →
    hiLimb w (operandA w a s) ≠ 0 →
    ∃ t, exec (.cmp w a .pb) s = .next t ∧ gtFlag t.status = true ∧ ltFlag t.status = false ∧
      eqFlag t.status = false

/-- R71: with a zero-extended scalar, AND clears `hi`, and OR and XOR leave the wide operand's. -/
def Obligations.ScalarBitwiseClearsOrKeepsHi : Prop :=
  ∀ (w : Width) (a : SrcA) (x : BitVec w.half) (s : State), s.ports.pb = ofScalar x →
    (∃ t, exec (.and w a .pb) s = .next t ∧ hiLimb w t.q.toNat = 0) ∧
    (∃ t, exec (.or w a .pb) s = .next t ∧
      hiLimb w t.q.toNat = hiLimb w (operandA w a s)) ∧
    (∃ t, exec (.xor w a .pb) s = .next t ∧
      hiLimb w t.q.toNat = hiLimb w (operandA w a s))
end

