-- ==== Sys2Proof/Laws/Decode.lean ====
section
/-! SUPPORT. The fields of an encoded word, each field's decoding of its own encoding, and a word put
together again from its fields. -/

namespace Sys2Proof

variable (op : BitVec 6) (w : Width) (a : SrcA) (b : SrcB)

@[simp] theorem opField_commandWord : opField (commandWord op w a b) = op := by
  apply BitVec.eq_of_getLsbD_eq
  intro i hi
  simp only [opField, commandWord, BitVec.getLsbD_append, BitVec.getLsbD_extractLsb']
  grind

@[simp] theorem wdField_commandWord : wdField (commandWord op w a b) = encodeWidth w := by
  apply BitVec.eq_of_getLsbD_eq
  intro i hi
  simp only [wdField, commandWord, BitVec.getLsbD_append, BitVec.getLsbD_extractLsb']
  grind

@[simp] theorem saField_commandWord : saField (commandWord op w a b) = encodeSrcA a := by
  apply BitVec.eq_of_getLsbD_eq
  intro i hi
  simp only [saField, commandWord, BitVec.getLsbD_append, BitVec.getLsbD_extractLsb']
  grind

@[simp] theorem sbField_commandWord : sbField (commandWord op w a b) = encodeSrcB b := by
  apply BitVec.eq_of_getLsbD_eq
  intro i hi
  simp only [sbField, commandWord, BitVec.getLsbD_append, BitVec.getLsbD_extractLsb']
  grind

@[simp] theorem rsvField_commandWord : rsvField (commandWord op w a b) = 0 := by
  apply BitVec.eq_of_getLsbD_eq
  intro i hi
  simp only [rsvField, commandWord, BitVec.getLsbD_append, BitVec.getLsbD_extractLsb']
  grind

@[simp] theorem decodeWidth_encodeWidth : decodeWidth (encodeWidth w) = w := by
  cases w <;> rfl

@[simp] theorem decodeSrcA_encodeSrcA : decodeSrcA (encodeSrcA a) = some a := by
  cases a <;> rfl

@[simp] theorem decodeSrcB_encodeSrcB : decodeSrcB (encodeSrcB b) = some b := by
  cases b <;> rfl

/-- A word is its five fields, one after the other (30_encoding.md R45). -/
theorem word_of_fields (c : CmdWord) :
    rsvField c ++ sbField c ++ saField c ++ wdField c ++ opField c = c := by
  apply BitVec.eq_of_getLsbD_eq
  intro i hi
  simp only [rsvField, sbField, saField, wdField, opField, BitVec.getLsbD_append,
    BitVec.getLsbD_extractLsb']
  grind

end Sys2Proof
end

