-- ==== Sys2Proof/Laws/Flags.lean ====
section
/-! SUPPORT. Each field of STATUS after each write of a field. -/

namespace Sys2Proof.Machine

/-- `withErr` changes bits [1:0] only. -/
theorem getLsbD_withErr (e : BitVec 2) (st : StatusWord) (i : Nat) :
    (withErr e st).getLsbD i = if i < 2 then e.getLsbD i else st.getLsbD i := by
  by_cases h : i < 2
  · have : i = 0 ∨ i = 1 := by omega
    rcases this with rfl | rfl <;> simp [withErr]
  · simp only [withErr, h, if_false, BitVec.getLsbD_or, BitVec.getLsbD_and, BitVec.getLsbD_not,
      BitVec.getLsbD_setWidth]
    by_cases h32 : i < 32
    · have h3 : (3#32).getLsbD i = false := by
        have : ∀ j : Fin 32, ¬ j.val < 2 → (3#32).getLsbD j.val = false := by decide
        exact this ⟨i, h32⟩ h
      have he : e.getLsbD i = false := BitVec.getLsbD_of_ge _ _ (by omega)
      rw [h3, he]
      simp only [h32, decide_true, Bool.not_false, Bool.and_true, Bool.and_false,
        Bool.or_false]
    · have he : e.getLsbD i = false := BitVec.getLsbD_of_ge _ _ (by omega)
      have hs : st.getLsbD i = false := BitVec.getLsbD_of_ge _ _ (by omega)
      simp [he, hs]

/-- `withBit k` changes bit `k` only. -/
theorem getLsbD_withBit (k : Nat) (b : Bool) (st : StatusWord) (i : Nat) (hk : k < 32) :
    (withBit k b st).getLsbD i = if i = k then b else st.getLsbD i := by
  have h1 : (1#32 <<< k).getLsbD i = decide (i = k) := by
    rw [← BitVec.twoPow_eq, BitVec.getLsbD_twoPow]
    by_cases h : k = i <;> simp [h, eq_comm]; omega
  by_cases h : i = k
  · subst h
    cases b <;> simp [withBit, hk]
  · cases b <;>
      simp only [withBit, h1, h, if_false, if_true, Bool.false_eq_true, BitVec.getLsbD_or,
        BitVec.getLsbD_and, BitVec.getLsbD_not, decide_false, Bool.or_false]
    by_cases h32 : i < 32
    · simp [h32]
    · have hs : st.getLsbD i = false := BitVec.getLsbD_of_ge _ _ (by omega)
      simp [hs]

/-- `withSticky` changes bit 5 only. -/
theorem getLsbD_withSticky (b : Bool) (st : StatusWord) (i : Nat) :
    (withSticky b st).getLsbD i = if i = 5 then b else st.getLsbD i :=
  getLsbD_withBit 5 b st i (by decide)

/-- The three flag writes of CMP change bits 2, 3 and 4 only. -/
theorem getLsbD_withCompare (a b : Nat) (st : StatusWord) (i : Nat) :
    (withCompare a b st).getLsbD i =
      if i = 4 then decide (a > b)
      else if i = 3 then decide (a < b)
      else if i = 2 then decide (a = b) else st.getLsbD i := by
  simp only [withCompare, withGt, withLt, withEq]
  rw [getLsbD_withBit 4 _ _ _ (by decide), getLsbD_withBit 3 _ _ _ (by decide),
    getLsbD_withBit 2 _ _ _ (by decide)]

/-- Two words whose bits 0 and 1 agree have the same ERR. -/
theorem errField_congr {st st' : StatusWord} (h0 : st.getLsbD 0 = st'.getLsbD 0)
    (h1 : st.getLsbD 1 = st'.getLsbD 1) : errField st = errField st' := by
  apply BitVec.eq_of_getLsbD_eq
  intro i hi
  have : i = 0 ∨ i = 1 := by omega
  rcases this with rfl | rfl
  · simpa only [errField, BitVec.getLsbD_extractLsb'] using congrArg _ h0
  · simpa only [errField, BitVec.getLsbD_extractLsb'] using congrArg _ h1

/-- Two words whose bits from 6 up agree have the same reserved field. -/
theorem reservedField_congr {st st' : StatusWord}
    (h : ∀ i, 6 ≤ i → st.getLsbD i = st'.getLsbD i) : reservedField st = reservedField st' := by
  apply BitVec.eq_of_getLsbD_eq
  intro i hi
  simp [reservedField, hi, h (6 + i) (by omega)]

/-! ### withErr -/

@[simp] theorem errField_withErr (e : BitVec 2) (st : StatusWord) : errField (withErr e st) = e := by
  apply BitVec.eq_of_getLsbD_eq
  intro i hi
  simp [errField, getLsbD_withErr, hi]

@[simp] theorem eqFlag_withErr (e : BitVec 2) (st : StatusWord) :
    eqFlag (withErr e st) = eqFlag st := getLsbD_withErr e st 2

@[simp] theorem ltFlag_withErr (e : BitVec 2) (st : StatusWord) :
    ltFlag (withErr e st) = ltFlag st := getLsbD_withErr e st 3

@[simp] theorem gtFlag_withErr (e : BitVec 2) (st : StatusWord) :
    gtFlag (withErr e st) = gtFlag st := getLsbD_withErr e st 4

@[simp] theorem stickyFlag_withErr (e : BitVec 2) (st : StatusWord) :
    stickyFlag (withErr e st) = stickyFlag st := getLsbD_withErr e st 5

@[simp] theorem reservedField_withErr (e : BitVec 2) (st : StatusWord) :
    reservedField (withErr e st) = reservedField st :=
  reservedField_congr fun i hi => by simp [getLsbD_withErr, show ¬ i < 2 by omega]

/-! ### withSticky -/

@[simp] theorem errField_withSticky (b : Bool) (st : StatusWord) :
    errField (withSticky b st) = errField st :=
  errField_congr (getLsbD_withSticky b st 0) (getLsbD_withSticky b st 1)

@[simp] theorem eqFlag_withSticky (b : Bool) (st : StatusWord) :
    eqFlag (withSticky b st) = eqFlag st := getLsbD_withSticky b st 2

@[simp] theorem ltFlag_withSticky (b : Bool) (st : StatusWord) :
    ltFlag (withSticky b st) = ltFlag st := getLsbD_withSticky b st 3

@[simp] theorem gtFlag_withSticky (b : Bool) (st : StatusWord) :
    gtFlag (withSticky b st) = gtFlag st := getLsbD_withSticky b st 4

@[simp] theorem stickyFlag_withSticky (b : Bool) (st : StatusWord) :
    stickyFlag (withSticky b st) = b := getLsbD_withSticky b st 5

@[simp] theorem reservedField_withSticky (b : Bool) (st : StatusWord) :
    reservedField (withSticky b st) = reservedField st :=
  reservedField_congr fun i hi => by simp [getLsbD_withSticky, show i ≠ 5 by omega]

/-! ### withCompare -/

@[simp] theorem errField_withCompare (a b : Nat) (st : StatusWord) :
    errField (withCompare a b st) = errField st :=
  errField_congr (getLsbD_withCompare a b st 0) (getLsbD_withCompare a b st 1)

@[simp] theorem eqFlag_withCompare (a b : Nat) (st : StatusWord) :
    eqFlag (withCompare a b st) = decide (a = b) := getLsbD_withCompare a b st 2

@[simp] theorem ltFlag_withCompare (a b : Nat) (st : StatusWord) :
    ltFlag (withCompare a b st) = decide (a < b) := getLsbD_withCompare a b st 3

@[simp] theorem gtFlag_withCompare (a b : Nat) (st : StatusWord) :
    gtFlag (withCompare a b st) = decide (a > b) := getLsbD_withCompare a b st 4

@[simp] theorem stickyFlag_withCompare (a b : Nat) (st : StatusWord) :
    stickyFlag (withCompare a b st) = stickyFlag st := getLsbD_withCompare a b st 5

@[simp] theorem reservedField_withCompare (a b : Nat) (st : StatusWord) :
    reservedField (withCompare a b st) = reservedField st :=
  reservedField_congr fun i hi => by
    simp [getLsbD_withCompare, show i ≠ 4 by omega, show i ≠ 3 by omega, show i ≠ 2 by omega]

end Sys2Proof.Machine
end

