-- ==== Sys2Proof/Laws/Operands.lean ====
section
/-! SUPPORT. Widths as numbers, and the range of operands. -/

namespace Sys2Proof

@[simp] theorem Width.bits_w128 : Width.w128.bits = 128 := rfl
@[simp] theorem Width.bits_w256 : Width.w256.bits = 256 := rfl
@[simp] theorem Width.half_w128 : Width.w128.half = 64 := rfl
@[simp] theorem Width.half_w256 : Width.w256.half = 128 := rfl

/-- No width is wider than a register. -/
theorem Width.two_pow_bits_le (w : Width) : 2 ^ w.bits ≤ 2 ^ 256 :=
  Nat.pow_le_pow_right (by decide) (by cases w <;> decide)

/-- A W-bit value is unchanged by storing it in a register (10_state.md R31). -/
theorem Width.toNat_ofNat_of_lt (w : Width) {v : Nat} (h : v < 2 ^ w.bits) :
    (BitVec.ofNat 256 v).toNat = v := by
  rw [BitVec.toNat_ofNat]
  exact Nat.mod_eq_of_lt (Nat.lt_of_lt_of_le h w.two_pow_bits_le)

end Sys2Proof

namespace Sys2Proof.Machine

/-- opA is a W-bit value (30_encoding.md R51). -/
theorem operandA_lt (w : Width) (a : SrcA) (s : State) : operandA w a s < 2 ^ w.bits :=
  Nat.mod_lt _ (Nat.two_pow_pos _)

/-- opB is a W-bit value (30_encoding.md R51). -/
theorem operandB_lt (w : Width) (b : SrcB) (s : State) : operandB w b s < 2 ^ w.bits :=
  Nat.mod_lt _ (Nat.two_pow_pos _)

/-- The limb view (00_scope.md R13): value = hi * 2^H + lo. -/
theorem hiLimb_loLimb (w : Width) (v : Nat) : hiLimb w v * 2 ^ w.half + loLimb w v = v := by
  rw [hiLimb, loLimb, Nat.mul_comm]
  exact Nat.div_add_mod v _

end Sys2Proof.Machine
end

