-- ==== Sys2Proof/Laws/State.lean ====
section
/-! SUPPORT. What each shared update of the state leaves in each field: one lemma per field per update,
so that no later proof unfolds a record update. -/

namespace Sys2Proof.Machine

variable (s : State)

/-! ### writeQ -/

@[simp] theorem writeQ_q (v : Nat) : (writeQ v s).q = BitVec.ofNat 256 v := rfl
@[simp] theorem writeQ_r (v : Nat) : (writeQ v s).r = s.r := rfl
@[simp] theorem writeQ_status (v : Nat) : (writeQ v s).status = s.status := rfl
@[simp] theorem writeQ_wq (v : Nat) : (writeQ v s).wq = true := rfl
@[simp] theorem writeQ_wr (v : Nat) : (writeQ v s).wr = s.wr := rfl
@[simp] theorem writeQ_resets (v : Nat) : (writeQ v s).resets = s.resets := rfl
@[simp] theorem writeQ_ports (v : Nat) : (writeQ v s).ports = s.ports := rfl
@[simp] theorem writeQ_pending (v : Nat) : (writeQ v s).pending = s.pending := rfl

/-! ### writeR -/

@[simp] theorem writeR_q (v : Nat) : (writeR v s).q = s.q := rfl
@[simp] theorem writeR_r (v : Nat) : (writeR v s).r = BitVec.ofNat 256 v := rfl
@[simp] theorem writeR_status (v : Nat) : (writeR v s).status = s.status := rfl
@[simp] theorem writeR_wq (v : Nat) : (writeR v s).wq = s.wq := rfl
@[simp] theorem writeR_wr (v : Nat) : (writeR v s).wr = true := rfl
@[simp] theorem writeR_resets (v : Nat) : (writeR v s).resets = s.resets := rfl
@[simp] theorem writeR_ports (v : Nat) : (writeR v s).ports = s.ports := rfl
@[simp] theorem writeR_pending (v : Nat) : (writeR v s).pending = s.pending := rfl

/-! ### complete -/

@[simp] theorem complete_q : (complete s).q = s.q := rfl
@[simp] theorem complete_r : (complete s).r = s.r := rfl
@[simp] theorem complete_status : (complete s).status = withErr 0 s.status := rfl
@[simp] theorem complete_wq : (complete s).wq = s.wq := rfl
@[simp] theorem complete_wr : (complete s).wr = s.wr := rfl
@[simp] theorem complete_resets : (complete s).resets = s.resets := rfl
@[simp] theorem complete_ports : (complete s).ports = s.ports := rfl
@[simp] theorem complete_pending : (complete s).pending = s.pending := rfl

/-! ### raise -/

@[simp] theorem raise_q (e : ErrorKind) : (raise e s).q = s.q := rfl
@[simp] theorem raise_r (e : ErrorKind) : (raise e s).r = s.r := rfl
@[simp] theorem raise_status (e : ErrorKind) :
    (raise e s).status = withSticky true (withErr (errorCode e) s.status) := rfl
@[simp] theorem raise_wq (e : ErrorKind) : (raise e s).wq = s.wq := rfl
@[simp] theorem raise_wr (e : ErrorKind) : (raise e s).wr = s.wr := rfl
@[simp] theorem raise_resets (e : ErrorKind) : (raise e s).resets = s.resets := rfl
@[simp] theorem raise_ports (e : ErrorKind) : (raise e s).ports = s.ports := rfl
@[simp] theorem raise_pending (e : ErrorKind) : (raise e s).pending = s.pending := rfl

/-! ### takeReset -/

@[simp] theorem takeReset_q (rest : List HostAction) : (takeReset rest s).q = 0 := rfl
@[simp] theorem takeReset_r (rest : List HostAction) : (takeReset rest s).r = 0 := rfl
@[simp] theorem takeReset_status (rest : List HostAction) : (takeReset rest s).status = 0 := rfl
@[simp] theorem takeReset_wq (rest : List HostAction) : (takeReset rest s).wq = false := rfl
@[simp] theorem takeReset_wr (rest : List HostAction) : (takeReset rest s).wr = false := rfl
@[simp] theorem takeReset_resets (rest : List HostAction) :
    (takeReset rest s).resets = s.resets + 1 := rfl
@[simp] theorem takeReset_ports (rest : List HostAction) : (takeReset rest s).ports = s.ports := rfl
@[simp] theorem takeReset_pending (rest : List HostAction) :
    (takeReset rest s).pending = rest := rfl

/-! ### samplePorts -/

@[simp] theorem samplePorts_q (c : Command) (rest : List HostAction) :
    (samplePorts c rest s).q = s.q := rfl
@[simp] theorem samplePorts_r (c : Command) (rest : List HostAction) :
    (samplePorts c rest s).r = s.r := rfl
@[simp] theorem samplePorts_status (c : Command) (rest : List HostAction) :
    (samplePorts c rest s).status = s.status := rfl
@[simp] theorem samplePorts_wq (c : Command) (rest : List HostAction) :
    (samplePorts c rest s).wq = s.wq := rfl
@[simp] theorem samplePorts_wr (c : Command) (rest : List HostAction) :
    (samplePorts c rest s).wr = s.wr := rfl
@[simp] theorem samplePorts_resets (c : Command) (rest : List HostAction) :
    (samplePorts c rest s).resets = s.resets := rfl
@[simp] theorem samplePorts_ports (c : Command) (rest : List HostAction) :
    (samplePorts c rest s).ports = c := rfl
@[simp] theorem samplePorts_pending (c : Command) (rest : List HostAction) :
    (samplePorts c rest s).pending = rest := rfl

/-! ### Reading Q and R after an update -/

@[simp] theorem readQ_writeQ (v : Nat) : readQ (writeQ v s) = BitVec.ofNat 256 v := rfl
@[simp] theorem readQ_writeR (v : Nat) : readQ (writeR v s) = readQ s := rfl
@[simp] theorem readQ_complete : readQ (complete s) = readQ s := rfl
@[simp] theorem readQ_raise (e : ErrorKind) : readQ (raise e s) = readQ s := rfl
@[simp] theorem readQ_samplePorts (c : Command) (rest : List HostAction) :
    readQ (samplePorts c rest s) = readQ s := rfl
@[simp] theorem readQ_takeReset (rest : List HostAction) :
    readQ (takeReset rest s) = Config.resetQ (s.resets + 1) := rfl
@[simp] theorem readR_writeR (v : Nat) : readR (writeR v s) = BitVec.ofNat 256 v := rfl
@[simp] theorem readR_writeQ (v : Nat) : readR (writeQ v s) = readR s := rfl
@[simp] theorem readR_complete : readR (complete s) = readR s := rfl
@[simp] theorem readR_raise (e : ErrorKind) : readR (raise e s) = readR s := rfl
@[simp] theorem readR_samplePorts (c : Command) (rest : List HostAction) :
    readR (samplePorts c rest s) = readR s := rfl
@[simp] theorem readR_takeReset (rest : List HostAction) :
    readR (takeReset rest s) = Config.resetR (s.resets + 1) := rfl

/-- A written Q reads as it is stored. -/
theorem readQ_of_written (h : s.wq = true) : readQ s = s.q := by simp [readQ, h]

/-- A written R reads as it is stored. -/
theorem readR_of_written (h : s.wr = true) : readR s = s.r := by simp [readR, h]

/-! ### Where the step goes -/

/-- With nothing pending the step is the idle step. -/
theorem step_of_idle (h : s.pending = []) : step s = .next s := by simp [step, idle, h]

/-- With an action pending the step performs the first one. -/
theorem step_of_pending (action : HostAction) (rest : List HostAction)
    (h : s.pending = action :: rest) : step s = perform action rest s := by simp [step, h]

end Sys2Proof.Machine
end

