-- ==== Sys2Proof/Laws/Ops.lean ====
section
/-! SUPPORT. One lemma per shared operation that says all it can do. -/

namespace Sys2Proof.Machine

/-- Failing does exactly what 60_exceptions.md R103 says. -/
theorem raise_failsWith (e : ErrorKind) (s : State) : FailsWith s (errorCode e) (raise e s) where
  err_code := by simp
  sticky_set := by simp
  flags_kept := by simp [SameFlags]
  reserved_kept := by simp
  results_kept := by simp [SameResults]
  surroundings := by simp [SameSurroundings]

/-- Writing a W-bit value to Q and completing. -/
theorem resultInQ_completes (w : Width) (v : Nat) (s : State) (h : v < 2 ^ w.bits) :
    ∃ t, resultInQ v s = .next t ∧ CompletesWithQ s v t := by
  refine ⟨_, rfl, ?_⟩
  exact {
    q_value := by simpa using w.toNat_ofNat_of_lt h
    wq_set := rfl
    err_ok := by simp
    status_kept := fun i hi => by simp [getLsbD_withErr, show ¬ i < 2 by omega]
    r_kept := by simp
    surroundings := by simp [SameSurroundings] }

/-- A binary command whose function keeps to W bits completes with the function of its operands in Q. -/
theorem binaryToQ_completes (w : Width) (a : SrcA) (b : SrcB) (f : Nat → Nat → Nat) (s : State)
    (h : f (operandA w a s) (operandB w b s) < 2 ^ w.bits) :
    ∃ t, binaryToQ w a b f s = .next t ∧
      CompletesWithQ s (f (operandA w a s) (operandB w b s)) t :=
  resultInQ_completes w _ s h

/-- A unary command whose function keeps to W bits completes with the function of its operand in Q. -/
theorem unaryToQ_completes (w : Width) (a : SrcA) (f : Nat → Nat) (s : State)
    (h : f (operandA w a s) < 2 ^ w.bits) :
    ∃ t, unaryToQ w a f s = .next t ∧ CompletesWithQ s (f (operandA w a s)) t :=
  resultInQ_completes w _ s h

/-- Whatever value a binary command writes, it changes Q, WQ and ERR only. -/
theorem binaryToQ_eq (w : Width) (a : SrcA) (b : SrcB) (f : Nat → Nat → Nat) (s : State) :
    binaryToQ w a b f s = .next (complete (writeQ (f (operandA w a s) (operandB w b s)) s)) := rfl

/-- Whatever value a unary command writes, it changes Q, WQ and ERR only. -/
theorem unaryToQ_eq (w : Width) (a : SrcA) (f : Nat → Nat) (s : State) :
    unaryToQ w a f s = .next (complete (writeQ (f (operandA w a s)) s)) := rfl

/-- DIVREM on a zero divisor only fails (45_divide.md R98). -/
theorem execDivrem_of_zero (w : Width) (a : SrcA) (b : SrcB) (s : State)
    (h : operandB w b s = 0) : execDivrem w a b s = .next (raise .divisionByZero s) := by
  simp [execDivrem, h]

/-- DIVREM on any other divisor writes the quotient and the remainder and completes. -/
theorem execDivrem_of_ne_zero (w : Width) (a : SrcA) (b : SrcB) (s : State)
    (h : operandB w b s ≠ 0) :
    execDivrem w a b s = .next (complete (writeR (operandA w a s % operandB w b s)
      (writeQ (operandA w a s / operandB w b s) s))) := by
  simp [execDivrem, h]

end Sys2Proof.Machine
end

