-- ==== Sys2Proof/Laws/PerInstr.lean ====
section
/-! SUPPORT. A statement for all instructions, one lemma per constructor: the word of every command
passes every legality check of 30_encoding.md R54. -/

namespace Sys2Proof.Laws.EncodingIsLegal

/-- The fields of the command's word are well formed (30_encoding.md R54). -/
def Statement (i : Instr) : Prop := (fieldsOf (encode i)).wellFormed = true

/-- A word put together from a listed operation and any width and sources is well formed. -/
theorem commandWord_wellFormed (op : BitVec 6) (w : Width) (a : SrcA) (b : SrcB)
    (h : 1 ≤ op.toNat ∧ op.toNat < 0x0E) : (fieldsOf (commandWord op w a b)).wellFormed = true := by
  have ha : encodeSrcA a ≠ 3#2 := by cases a <;> decide
  have hb : encodeSrcB b ≠ 3#2 := by cases b <;> decide
  simp [fieldsOf, Fields.wellFormed, Fields.reservedClear, Fields.operationListed,
    Fields.sourceAListed, Fields.sourceBListed, h, ha, hb]

theorem cmp (w : Width) (a : SrcA) (b : SrcB) : Statement (.cmp w a b) :=
  commandWord_wellFormed _ w a b (by decide)

theorem and (w : Width) (a : SrcA) (b : SrcB) : Statement (.and w a b) :=
  commandWord_wellFormed _ w a b (by decide)

theorem or (w : Width) (a : SrcA) (b : SrcB) : Statement (.or w a b) :=
  commandWord_wellFormed _ w a b (by decide)

theorem xor (w : Width) (a : SrcA) (b : SrcB) : Statement (.xor w a b) :=
  commandWord_wellFormed _ w a b (by decide)

theorem not (w : Width) (a : SrcA) (b : SrcB) : Statement (.not w a b) :=
  commandWord_wellFormed _ w a b (by decide)

theorem shl (w : Width) (a : SrcA) (b : SrcB) : Statement (.shl w a b) :=
  commandWord_wellFormed _ w a b (by decide)

theorem shr (w : Width) (a : SrcA) (b : SrcB) : Statement (.shr w a b) :=
  commandWord_wellFormed _ w a b (by decide)

theorem add (w : Width) (a : SrcA) (b : SrcB) : Statement (.add w a b) :=
  commandWord_wellFormed _ w a b (by decide)

theorem sub (w : Width) (a : SrcA) (b : SrcB) : Statement (.sub w a b) :=
  commandWord_wellFormed _ w a b (by decide)

theorem neg (w : Width) (a : SrcA) (b : SrcB) : Statement (.neg w a b) :=
  commandWord_wellFormed _ w a b (by decide)

theorem mul (w : Width) (a : SrcA) (b : SrcB) : Statement (.mul w a b) :=
  commandWord_wellFormed _ w a b (by decide)

theorem divrem (w : Width) (a : SrcA) (b : SrcB) : Statement (.divrem w a b) :=
  commandWord_wellFormed _ w a b (by decide)

theorem bitlen (w : Width) (a : SrcA) (b : SrcB) : Statement (.bitlen w a b) :=
  commandWord_wellFormed _ w a b (by decide)

end Sys2Proof.Laws.EncodingIsLegal
end

