-- ==== Sys2Proof/Tests/Slice0.lean ====
section
/-! SUPPORT. Small tests of one step each, with expected results from spec/95_test_vectors.md and the
rules' own examples, and for every statement with hypotheses a witness that meets them. -/

namespace Sys2Proof.Tests

open Sys2Proof Sys2Proof.Machine

/-- Right after reset, with one command issued. -/
def issued (cmd : CmdWord) (pa pb : Word) : State :=
  { State.reset with pending := [.issue { cmd := cmd, pa := pa, pb := pb }] }

/-- Both result registers written: Q = 9, R = 4, with PA = 100 and PB = 7. -/
def written : State :=
  { State.reset with q := 9, r := 4, wq := true, wr := true, ports := { cmd := 0, pa := 100, pb := 7 } }

/-- `written`, with one command issued. -/
def writtenIssued (cmd : CmdWord) (pa pb : Word) : State :=
  { written with pending := [.issue { cmd := cmd, pa := pa, pb := pb }] }

/-- The next state of a step, if it has one. -/
def stepped (s : State) : Option State :=
  match step s with
  | .next t => some t
  | .fault _ => none
  | .refused _ => none

/-- Q and STATUS after one command from reset. -/
def qAfter (cmd : CmdWord) (pa pb : Word) : Option (Word × StatusWord) :=
  (stepped (issued cmd pa pb)).map fun t => (t.q, t.status)

/-! ### WellFormed: a term each check refuses (30_encoding.md R54) -/

theorem test_wellFormed_accepts : (Fields.mk 8 1 2 1 0).wellFormed = true := by decide
theorem test_wellFormed_reserved : (Fields.mk 8 0 0 0 1).reservedClear = false := by decide
theorem test_wellFormed_operation_zero : (Fields.mk 0 0 0 0 0).operationListed = false := by decide
theorem test_wellFormed_operation_0E : (Fields.mk 0x0E 0 0 0 0).operationListed = false := by decide
theorem test_wellFormed_sourceA : (Fields.mk 8 0 3 0 0).sourceAListed = false := by decide
theorem test_wellFormed_sourceB : (Fields.mk 5 0 0 3 0).sourceBListed = false := by decide
theorem test_wellFormed_refuses :
    (Fields.mk 8 0 0 0 1).wellFormed = false ∧ (Fields.mk 0 0 0 0 0).wellFormed = false ∧
    (Fields.mk 8 0 3 0 0).wellFormed = false ∧ (Fields.mk 5 0 0 3 0).wellFormed = false := by decide

/-! ### Decoding, from words written out bit by bit: RSV, SB, SA, WD, OP (30_encoding.md R45, R53;
95_test_vectors.md section 4) -/

theorem test_decode_cmp :
    decode 0b000000000000000000000_10_01_1_000001 = .legal (.cmp .w256 .q .r) := by decide
theorem test_decode_and :
    decode 0b000000000000000000000_10_01_1_000010 = .legal (.and .w256 .q .r) := by decide
theorem test_decode_or :
    decode 0b000000000000000000000_10_01_1_000011 = .legal (.or .w256 .q .r) := by decide
theorem test_decode_xor :
    decode 0b000000000000000000000_10_01_1_000100 = .legal (.xor .w256 .q .r) := by decide
theorem test_decode_not :
    decode 0b000000000000000000000_00_01_1_000101 = .legal (.not .w256 .q .pb) := by decide
theorem test_decode_shl :
    decode 0b000000000000000000000_10_01_1_000110 = .legal (.shl .w256 .q .r) := by decide
theorem test_decode_shr :
    decode 0b000000000000000000000_10_01_1_000111 = .legal (.shr .w256 .q .r) := by decide
theorem test_decode_add :
    decode 0b000000000000000000000_10_01_1_001000 = .legal (.add .w256 .q .r) := by decide
theorem test_decode_sub :
    decode 0b000000000000000000000_10_01_1_001001 = .legal (.sub .w256 .q .r) := by decide
theorem test_decode_neg :
    decode 0b000000000000000000000_00_01_1_001010 = .legal (.neg .w256 .q .pb) := by decide
theorem test_decode_mul :
    decode 0b000000000000000000000_10_01_1_001011 = .legal (.mul .w256 .q .r) := by decide
theorem test_decode_divrem :
    decode 0b000000000000000000000_10_01_1_001100 = .legal (.divrem .w256 .q .r) := by decide
theorem test_decode_bitlen :
    decode 0b000000000000000000000_00_01_1_001101 = .legal (.bitlen .w256 .q .pb) := by decide

/-! ### Illegal words (95_test_vectors.md LEG1 to LEG8) and a legal unary word with SB = 1 (LEG10) -/

theorem test_illegal_words :
    decode 0x00000000 = .illegal .operation ∧ decode 0x0000000E = .illegal .operation ∧
    decode 0x0000003F = .illegal .operation ∧ decode 0x00000188 = .illegal .sourceA ∧
    decode 0x00000608 = .illegal .sourceB ∧ decode 0x00000605 = .illegal .sourceB ∧
    decode 0x00000808 = .illegal .reservedBits ∧ decode 0x8000004C = .illegal .reservedBits := by decide
theorem test_illegal_before_division : (stepped (issued 0x8000004C 7 0)).map (·.status) = some 0x22 := by
  decide
theorem test_unary_ignores_sb :
    qAfter 0x00000205 7 0 = some (0xFFFFFFFFFFFFFFFF_FFFFFFFFFFFFFFF8, 0) := by decide

/-! ### One step of each command (95_test_vectors.md section 2) -/

theorem test_cmp_lo_decides :
    (stepped (issued 0x00000001 0x7_0000000000000009 0x7_0000000000000003)).map
      (fun t => (t.status, t.wq)) = some (0x10, false) := by decide
/-- COM5: the source code's `operator<` would set GT here (90_conflicts.md C1). -/
theorem test_cmp_hi_decides :
    (stepped (issued 0x00000001 0xffffffffffffffff 0x1_0000000000000000)).map
      (fun t => (t.status, t.wq)) = some (0x8, false) := by decide
theorem test_and_masks :
    qAfter 0x00000002 0xff00ff00_000000000000ffff
      0xffffffffffffffff =
    some (0xffff, 0) := by decide
theorem test_or_top_and_bottom :
    qAfter 0x00000043 0x8000000000000000000000000000000000000000000000000000000000000000
      0x1 =
    some (0x8000000000000000000000000000000000000000000000000000000000000001, 0) := by decide
theorem test_xor_low :
    qAfter 0x00000004 0xf0f0
      0xffff =
    some (0xf0f, 0) := by decide
theorem test_xor_256 :
    qAfter 0x00000044 0xaaaa000000000000_0000000000000000_0000000000000000_0000000000000000
      0xffffffffffffffff_ffffffffffffffff_ffffffffffffffff_ffffffffffffffff =
    some (0x5555ffffffffffff_ffffffffffffffff_ffffffffffffffff_ffffffffffffffff, 0) := by decide
theorem test_not_128_keeps_upper_zero :
    qAfter 0x00000005 0x123456789abcdef_fedcba9876543210
      0x0 =
    some (0xfedcba9876543210_0123456789abcdef, 0) := by decide
theorem test_shl_crosses_limbs :
    qAfter 0x00000006 0x8000000000000001
      0x1 =
    some (0x1_0000000000000002, 0) := by decide
theorem test_shl_amount_hi_gives_zero :
    qAfter 0x00000006 0x1
      0x1_0000000000000001 =
    some (0x0, 0) := by decide
theorem test_shr_is_logical :
    qAfter 0x00000007 0x8000000000000000_0000000000000000
      0x1 =
    some (0x4000000000000000_0000000000000000, 0) := by decide
theorem test_shr_256 :
    qAfter 0x00000047 0xffffffffffffffff_ffffffffffffffff_ffffffffffffffff_ffffffffffffffff
      0x81 =
    some (0x7fffffffffffffff_ffffffffffffffff, 0) := by decide
theorem test_add_carries_across_limbs :
    qAfter 0x00000048 0xffffffffffffffff_ffffffffffffffff
      0x1 =
    some (0x1_0000000000000000_0000000000000000, 0) := by decide
theorem test_add_wraps :
    qAfter 0x00000008 0xffffffffffffffff_ffffffffffffffff
      0xffffffffffffffff_ffffffffffffffff =
    some (0xffffffffffffffff_fffffffffffffffe, 0) := by decide
theorem test_sub_borrows :
    qAfter 0x00000049 0x1_0000000000000000_0000000000000000
      0x1 =
    some (0xffffffffffffffff_ffffffffffffffff, 0) := by decide
theorem test_sub_wraps :
    qAfter 0x00000009 0x0
      0x1 =
    some (0xffffffffffffffff_ffffffffffffffff, 0) := by decide
theorem test_neg_one :
    qAfter 0x0000000A 0x1
      0x0 =
    some (0xffffffffffffffff_ffffffffffffffff, 0) := by decide
theorem test_neg_256 :
    qAfter 0x0000004A 0x1_0000000000000000_0000000000000000
      0x0 =
    some (0xffffffffffffffff_ffffffffffffffff_0000000000000000_0000000000000000, 0) := by decide
theorem test_mul_exact :
    qAfter 0x0000000B 0xfedcba9876543210
      0xfedcba9876543210 =
    some (0xfdbac097c8dc5acc_deec6cd7a44a4100, 0) := by decide
theorem test_mul_256_wraps :
    qAfter 0x0000004B 0x8000000000000000_0000000000000000_0000000000000000_0000000000000001
      0x3 =
    some (0x8000000000000000_0000000000000000_0000000000000000_0000000000000003, 0) := by decide
theorem test_bitlen_hi_first :
    qAfter 0x0000000D 0x1_0000000000000000
      0x0 =
    some (0x41, 0) := by decide
theorem test_bitlen_ignores_upper :
    qAfter 0x0000000D 0x100_0000000000000000_0000000000000000_0000000000000000
      0x0 =
    some (0x0, 0) := by decide
theorem test_divrem_source_example :
    (stepped (issued 0x0000004C 0xffffffffffffffff_ffffffffffffffff_ffffffffffffffff_ffffffffffffffff
      0xfedcba9876543210)).map (fun t => (t.q, t.r, t.status)) =
    some (0x1_0124924924924924_7feb1a1f58d0fac6_8926106b79a7ee16, 0x63794f9d55c8d29f, 0) := by decide
theorem test_divrem_by_zero :
    (stepped (issued 0x0000000C 0x7 0x1_0000000000000000_0000000000000000)).map
      (fun t => (t.status, t.wq, t.wr)) = some (0x21, false, false) := by decide

/-! ### The assembler's examples (30_encoding.md R58, R59, R62; 95_test_vectors.md P2, P3) -/

theorem test_assemble_examples :
    (parseLine "ADD.128 A, B").map assemble = some 0x00000008 ∧
    (parseLine "divrem.256 Q, B").map assemble = some 0x000000CC ∧
    (parseLine "NOT.256 R").map assemble = some 0x00000145 ∧
    (parseLine "REM.128 A, B").map assemble = some 0x0000000C ∧
    (parseLine "LE.256 Q, B").map assemble = some 0x000000C1 := by decide
theorem test_assemble_refuses :
    parseLine "ADD.64 A, B" = none ∧ parseLine "ADD.128 B, A" = none ∧
    parseLine "NOT.128 A, B" = none := by decide
theorem test_program_line :
    parseProgramLine "ADD.128 Q, B ; PA=0x0, PB=0x1_0000000000000000" =
      some { cmd := 0x00000088, pa := 0, pb := 0x1_0000000000000000 } := by decide
/-- A `.word` line, as in program P3 of 95_test_vectors.md, and one that is no 32-bit word. -/
theorem test_parseWordLine :
    parseProgramLine ".word 0x0000003F" = some { cmd := 0x0000003F, pa := 0, pb := 0 } ∧
    parseProgramLine ".word 0x100000000" = none := by decide
theorem test_disassemble :
    disassemble 0x00000489 = "SUB.128 Q, R" ∧ disassemble 0x00000205 = "NOT.128 A" ∧
    disassemble 0x8000004C = ".word 0x8000004C" := by decide

/-! ### The limb algorithms on the spec's vectors (SHI10, MUL3, DIV9, ADD5) -/

theorem test_limb_algorithms :
    limbShift 2 .left 0xffffffffffffffff_ffffffffffffffff 0xc8 =
      0xffffffffffffff00_0000000000000000_0000000000000000_0000000000000000 ∧
    limbMultiply .w128 0xffffffffffffffff 0xffffffffffffffff = 0xfffffffffffffffe_0000000000000001 ∧
    limbDivmod .w128 0xffffffffffffffff_ffffffffffffffff 0xffffffffffffffff =
      some (0x1_0000000000000001, 0) ∧
    limbAdd 2 0xffffffffffffffff_ffffffffffffffff 1 = 0x1_0000000000000000_0000000000000000 := by decide

/-! ### The fixed names on the table's words (spec/opcode_table.json, row ADD) -/

theorem test_decodeTableWord : decodeTableWord 32 0x00000008 = some (.add .w128 .pa .pb) := by decide
theorem test_decodeTableWord_refuses : decodeTableWord 32 0 = none ∧ decodeTableWord 40 8 = none := by
  decide
theorem test_withFetchWord :
    (stepped (State.reset.withFetchWord 32 0x00000005)).map (·.q) =
      some 0xffffffffffffffff_ffffffffffffffff := by decide

/-! ### Witnesses: each shows states and operands that meet a statement's hypotheses together -/

theorem witness_ResetAction :
    ({ written with pending := [.reset, .issue ⟨8, 1, 2⟩] } : State).pending =
      .reset :: [.issue ⟨8, 1, 2⟩] := rfl

theorem witness_EveryStepKeepsInvariant : ∃ t, (issued 8 1 2).Inv ∧ step (issued 8 1 2) = .next t :=
  ⟨_, ⟨by decide, by decide, by decide, .inr ⟨by decide, by decide, by decide⟩, by decide⟩, rfl⟩

theorem witness_StepRunsDecodedCommand :
    (issued 0x48 1 2).pending = .issue ⟨0x48, 1, 2⟩ :: [] ∧
      decode 0x48 = .legal (.add .w256 .pa .pb) := by decide

theorem witness_IdleUnitHoldsState : written.pending = [] := rfl

theorem witness_ActionsRunInIssueOrder :
    ({ written with pending := [.issue ⟨8, 1, 2⟩, .reset, .issue ⟨5, 0, 0⟩] } : State).pending =
      [.issue ⟨8, 1, 2⟩, .reset] ++ [.issue ⟨5, 0, 0⟩] := rfl

theorem witness_DisassemblyReadsBack :
    decode 0x00000489 = .legal (.sub .w128 .q .r) ∧
      sourceBOf (.sub .w128 .q .r) ≠ none ∧ illegalWord 0x00000605 := by
  refine ⟨by decide, by decide, ?_⟩
  unfold illegalWord
  decide

theorem witness_OperandsAreLowBitsOfSelectedSource : written.wq = true ∧ written.wr = true := by decide

theorem witness_BitsAboveWidthAreIgnored :
    AgreesBelow (widthOf (.divrem .w128 .pa .pb)) written
        { written with ports := { written.ports with pb := 0x1_0000000000000000_0000000000000007 } } ∧
      isCmp (.divrem .w128 .pa .pb) = false ∧ isDivrem (.divrem .w128 .pa .pb) = true ∧
      ¬ dividesByZero (.divrem .w128 .pa .pb) written := by
  refine ⟨⟨by decide, by decide, by decide, by decide, by decide⟩, by decide, by decide, ?_⟩
  unfold dividesByZero
  decide

theorem witness_SourceMayEqualDestination : (readR written).toNat % 2 ^ Width.w128.bits ≠ 0 := by decide

/-- PB = 127, 128 and 2^64 at W = 128: the last amount in range, the first out of range by `lo`, and the
first out of range by `hi`. -/
theorem witness_ShiftAmounts :
    let amount (pb : Word) : Nat := operandB .w128 .pb { written with ports := ⟨0, 1, pb⟩ }
    (fieldValue (Width.w128.bits - 1) Width.w128.half (amount 127) = 0 ∧
      fieldValue (Width.w128.half - 1) 0 (amount 127) < Width.w128.bits) ∧
    Width.w128.bits ≤ fieldValue (Width.w128.half - 1) 0 (amount 128) ∧
    fieldValue (Width.w128.bits - 1) Width.w128.half (amount 0x1_0000000000000000) ≠ 0 := by decide

theorem witness_DivremWritesQuotientAndRemainder : operandB .w128 .pb written ≠ 0 := by decide

/-- PB = 2^128 is a zero divisor at W = 128. -/
theorem witness_DivremByZeroFailsAndKeepsResults :
    operandB .w128 .pb (issued 0 5 0) = 0 ∧
    operandB .w128 .pb
      { written with ports := ⟨0, 0, 0x1_0000000000000000_0000000000000000⟩ } = 0 := by decide

theorem witness_BitlenGivesIndexOfHighestBit :
    operandA .w128 .pa (issued 0 0 0) = 0 ∧ 1 ≤ operandA .w128 .pa written := by decide

/-- Boundary values for the laws of ADD, SUB, NEG and MUL and for the limb algorithms. -/
theorem witness_ValuesOfTheWidth :
    2 ^ 128 - 1 < 2 ^ Width.w128.bits ∧ 2 ^ 128 ≤ 2 ^ 256 - 1 ∧ 2 ^ 256 - 1 < 2 ^ Width.w256.bits ∧
      127 < Width.w128.bits := by decide

theorem witness_CommandsChangeOnlyTheirDestinations :
    (∃ t, exec (.cmp .w128 .q .r) written = .next t ∧ isCmp (.cmp .w128 .q .r) = true) ∧
    (∃ t, exec (.not .w128 .q .pb) written = .next t ∧ isCmp (.not .w128 .q .pb) = false ∧
      isDivrem (.not .w128 .q .pb) = false) ∧
    (∃ t, exec (.divrem .w128 .q .pb) written = .next t ∧ isDivrem (.divrem .w128 .q .pb) = true ∧
      ¬ dividesByZero (.divrem .w128 .q .pb) written) ∧
    (∃ t, exec (.divrem .w128 .q .pb) State.reset = .next t ∧
      dividesByZero (.divrem .w128 .q .pb) State.reset) := by
  refine ⟨⟨_, rfl, rfl⟩, ⟨_, rfl, rfl, rfl⟩, ⟨_, rfl, rfl, ?_⟩, ⟨_, rfl, ?_⟩⟩ <;>
    unfold dividesByZero <;> decide

theorem witness_EveryOtherLegalCommandCompletes : ¬ dividesByZero (.divrem .w256 .q .r) written := by
  unfold dividesByZero
  decide

theorem witness_IllegalWordFailsAndDoesNothingElse :
    (issued 0x8000004C 7 0).pending = .issue ⟨0x8000004C, 7, 0⟩ :: [] ∧ illegalWord 0x8000004C ∧
      illegalWord 0x00000188 ∧ illegalWord 0x00000605 ∧ illegalWord 0x0000000E ∧ illegalWord 0 := by
  refine ⟨rfl, ?_, ?_, ?_, ?_, ?_⟩ <;> unfold illegalWord <;> decide

/-- The three clauses: an illegal word, a zero divisor, and a command that completes. -/
theorem witness_ErrDescribesTheLastCommand :
    (∃ t, step (issued 0x3F 7 0) = .next t ∧ illegalWord 0x3F) ∧
    (∃ t, step (issued 0x0C 7 0) = .next t ∧ decode 0x0C = .legal (.divrem .w128 .pa .pb) ∧
      dividesByZero (.divrem .w128 .pa .pb)
        { issued 0x0C 7 0 with ports := ⟨0x0C, 7, 0⟩, pending := [] }) ∧
    (∃ t, step (issued 0x0C 7 1) = .next t ∧ decode 0x0C = .legal (.divrem .w128 .pa .pb) ∧
      ¬ dividesByZero (.divrem .w128 .pa .pb)
        { issued 0x0C 7 1 with ports := ⟨0x0C, 7, 1⟩, pending := [] }) := by
  refine ⟨⟨_, rfl, ?_⟩, ⟨_, rfl, by decide, ?_⟩, ⟨_, rfl, by decide, ?_⟩⟩
  · unfold illegalWord
    decide
  all_goals
    unfold dividesByZero
    decide

/-- The clauses: a completed CMP, a command that is no CMP, an illegal word, and a reset. -/
theorem witness_OnlyCompletedCmpWritesFlags :
    (∃ t, step (issued 0x01 4 5) = .next t ∧ decode 0x01 = .legal (.cmp .w128 .pa .pb) ∧
      isCmp (.cmp .w128 .pa .pb) = true) ∧
    (∃ t, step (issued 0x08 4 5) = .next t ∧ ∀ i, decode 0x08 = .legal i → isCmp i = false) ∧
    (∃ t, step (issued 0x601 4 5) = .next t ∧ ∀ i, decode 0x601 = .legal i → isCmp i = false) ∧
    (∃ t, step { written with pending := [.reset] } = .next t) := by
  refine ⟨⟨_, rfl, by decide, rfl⟩, ⟨_, rfl, fun i h => ?_⟩, ⟨_, rfl, fun i h => ?_⟩, ⟨_, rfl⟩⟩
  · rw [show decode 0x08 = .legal (.add .w128 .pa .pb) by decide] at h
    cases h
    rfl
  · rw [show decode 0x601 = .illegal .sourceB by decide] at h
    cases h

theorem witness_StickyIsSetByFailureAndClearedByReset :
    (∃ t, step (issued 0x0C 7 0) = .next t) ∧
    (∃ t, step { written with status := 0x21, pending := [.reset] } = .next t) :=
  ⟨⟨_, rfl⟩, ⟨_, rfl⟩⟩

/-- A run of one command and one idle step, with STICKY clear at its end. -/
theorem witness_OneReadOfStickyChecksTheWholeRun :
    ∃ u t : State, (issued 8 1 2).Inv ∧ .reset ∉ (issued 8 1 2).pending ∧ 1 ≤ 2 ∧
      Host.Core.run Sys2Proof.core 1 (issued 8 1 2) = .next u ∧
      Host.Core.run Sys2Proof.core 2 (issued 8 1 2) = .next t ∧ stickyFlag t.status = false :=
  ⟨_, _, ⟨by decide, by decide, by decide, .inr ⟨by decide, by decide, by decide⟩, by decide⟩,
    by decide, by decide, rfl, rfl, by decide⟩

theorem witness_OnlyDivremWritesR :
    ∃ t, step (writtenIssued 0x48B 7 0) = .next t ∧
      ∀ i, decode 0x48B = .legal i → isDivrem i = false := by
  refine ⟨_, rfl, fun i h => ?_⟩
  rw [show decode 0x48B = .legal (.mul .w128 .q .r) by decide] at h
  cases h
  rfl

theorem witness_ReservedStatusBitsAreNeverWritten :
    ∃ t, step (issued 0x0C 7 0) = .next t ∧ reservedField (issued 0x0C 7 0).status = 0 ∧
      (issued 0x0C 7 0).pending = .issue ⟨0x0C, 7, 0⟩ :: [] := ⟨_, rfl, by decide, rfl⟩

theorem witness_WrittenValuesFitTheWidth :
    ∃ t, exec (.divrem .w128 .pa .pb) written = .next t ∧ isCmp (.divrem .w128 .pa .pb) = false ∧
      isDivrem (.divrem .w128 .pa .pb) = true ∧ ¬ dividesByZero (.divrem .w128 .pa .pb) written := by
  refine ⟨_, rfl, rfl, rfl, ?_⟩
  unfold dividesByZero
  decide

/-- The two states differ in the stored R, which is unwritten. -/
theorem witness_UnwrittenPlaceholdersAreNeverShown :
    LooksLike (issued 0x48 1 2) { issued 0x48 1 2 with r := 5 } :=
  ⟨rfl, rfl, rfl, ⟨rfl, rfl⟩, ⟨rfl, rfl, rfl⟩⟩

/-- The two states differ in the reset count and in the stored R, which is unwritten. -/
theorem witness_DutifulHostNeverSeesUnspecifiedContents :
    let s : State := { issued 0xC8 1 2 with q := 3, wq := true }
    AgreesOnWritten s { s with r := 5, resets := 1 } ∧
      s.pending = .issue ⟨0xC8, 1, 2⟩ :: [] ∧
      decode 0xC8 = .legal (.add .w256 .q .pb) ∧ readsOnlyWritten (.add .w256 .q .pb) s :=
  ⟨⟨fun _ => rfl, by decide, rfl, ⟨rfl, rfl⟩, rfl, rfl⟩, rfl, by decide,
    ⟨fun _ => rfl, by rintro (h | h) <;> cases h⟩⟩

theorem witness_WideValueExceedsEveryScalar :
    ({ written with ports := ⟨0, 0x1_0000000000000000, 0xFFFFFFFFFFFFFFFF⟩ } : State).ports.pb =
        ofScalar (0xFFFFFFFFFFFFFFFF#64 : BitVec Width.w128.half) ∧
      hiLimb .w128 (operandA .w128 .pa
        { written with ports := ⟨0, 0x1_0000000000000000, 0xFFFFFFFFFFFFFFFF⟩ }) ≠ 0 := by
  decide

theorem witness_ScalarBitwiseClearsOrKeepsHi :
    written.ports.pb = ofScalar (7#64 : BitVec Width.w128.half) := by decide

end Sys2Proof.Tests
end

section
/-! SUPPORT. What one command and one step can do, said once, and the statements about the state that
follow from it (10_state.md). -/

namespace Sys2Proof

/-! ### Legal and illegal words -/

theorem decodeOp_eq_none_iff (op : BitVec 6) :
    decodeOp op = none ↔ op.toNat = 0x00 ∨ op.toNat ≥ 0x0E := by
  revert op; decide

theorem decodeSrcA_eq_none_iff (f : BitVec 2) : decodeSrcA f = none ↔ f.toNat = 3 := by
  revert f; decide

theorem decodeSrcB_eq_none_iff (f : BitVec 2) : decodeSrcB f = none ↔ f.toNat = 3 := by
  revert f; decide

/-- A word is refused exactly when one of its fields is. -/
theorem decode_illegal_iff_field (c : CmdWord) :
    (∃ why, decode c = .illegal why) ↔
      rsvField c ≠ 0 ∨ decodeOp (opField c) = none ∨ decodeSrcA (saField c) = none ∨
        decodeSrcB (sbField c) = none := by
  by_cases hrsv : rsvField c = 0
  · cases hop : decodeOp (opField c) with
    | none => simp [decode, hrsv, hop]
    | some command =>
      cases ha : decodeSrcA (saField c) with
      | none => simp [decode, hrsv, hop, ha]
      | some a => cases hb : decodeSrcB (sbField c) <;> simp [decode, hrsv, hop, ha, hb]
  · rw [decode, if_neg hrsv]
    exact ⟨fun _ => .inl hrsv, fun _ => ⟨_, rfl⟩⟩

namespace Machine

/-- A bit field in the spec's arithmetic (00_scope.md R11) is the extracted bit vector. -/
theorem fieldValue_eq_extractLsb' (hi lo : Nat) (c : CmdWord) :
    fieldValue hi lo c.toNat = (c.extractLsb' lo (hi - lo + 1)).toNat := by
  rw [fieldValue, BitVec.extractLsb'_toNat, Nat.shiftRight_eq_div_pow]

/-- The decoder refuses exactly the words that meet a condition of 30_encoding.md R54. -/
theorem decode_illegal_iff (c : CmdWord) : (∃ why, decode c = .illegal why) ↔ illegalWord c := by
  have hrsv : fieldValue 31 11 c.toNat = (rsvField c).toNat := fieldValue_eq_extractLsb' 31 11 c
  have hop : fieldValue 5 0 c.toNat = (opField c).toNat := fieldValue_eq_extractLsb' 5 0 c
  have hsa : fieldValue 8 7 c.toNat = (saField c).toNat := fieldValue_eq_extractLsb' 8 7 c
  have hsb : fieldValue 10 9 c.toNat = (sbField c).toNat := fieldValue_eq_extractLsb' 10 9 c
  rw [decode_illegal_iff_field, illegalWord, hrsv, hop, hsa, hsb, decodeOp_eq_none_iff,
    decodeSrcA_eq_none_iff, decodeSrcB_eq_none_iff, ← BitVec.toNat_inj.ne]
  rfl

/-! ### The values commands write are W-bit values (10_state.md R31, R32) -/

section

variable (w : Width) {x : Nat}

theorem complement_lt (x : Nat) : complement w x < 2 ^ w.bits := by
  have := Nat.two_pow_pos w.bits
  unfold complement
  omega

theorem sumMod_lt (x y : Nat) : sumMod w x y < 2 ^ w.bits := Nat.mod_lt _ (Nat.two_pow_pos _)

theorem negateMod_lt (x : Nat) : negateMod w x < 2 ^ w.bits := Nat.mod_lt _ (Nat.two_pow_pos _)

theorem productMod_lt (x y : Nat) : productMod w x y < 2 ^ w.bits := Nat.mod_lt _ (Nat.two_pow_pos _)

theorem differenceMod_lt (x y : Nat) : differenceMod w x y < 2 ^ w.bits := by
  have hpos : (0 : Int) < 2 ^ w.bits := by positivity
  have hnonneg := Int.emod_nonneg ((x : Int) - y) hpos.ne'
  have hlt := Int.emod_lt_of_pos ((x : Int) - y) hpos
  unfold differenceMod
  zify
  rwa [Int.toNat_of_nonneg hnonneg]

theorem shiftLeft_lt (x y : Nat) : shiftLeft w x y < 2 ^ w.bits := by
  unfold shiftLeft
  split
  · exact Nat.two_pow_pos _
  · exact Nat.mod_lt _ (Nat.two_pow_pos _)

theorem shiftRight_lt (hx : x < 2 ^ w.bits) (y : Nat) : shiftRight w x y < 2 ^ w.bits := by
  unfold shiftRight
  split
  · exact Nat.two_pow_pos _
  · exact (Nat.div_le_self _ _).trans_lt hx

/-- A W-bit value has a bit length of at most W, and W itself fits in W bits. -/
theorem bitLength_lt (hx : x < 2 ^ w.bits) : bitLength x < 2 ^ w.bits := by
  have hle : bitLength x ≤ w.bits := by
    unfold bitLength
    split
    · exact Nat.zero_le _
    · next hne => exact (Nat.log2_lt hne).2 hx
  exact hle.trans_lt Nat.lt_two_pow_self

end

/-! ### What a command can do -/

/-- All the ways the legal command `i` can take `s` to its next state: a comparison, one result in Q, a
division with both results, or a division that fails. -/
inductive ExecEffect (i : Instr) (s : State) : State → Prop where
  | compared (x y : Nat) (hcmp : isCmp i = true) (hdiv : isDivrem i = false) :
    ExecEffect i s (complete { s with status := withCompare x y s.status })
  | result (v : Nat) (hv : v < 2 ^ (widthOf i).bits) (hcmp : isCmp i = false)
    (hdiv : isDivrem i = false) : ExecEffect i s (complete (writeQ v s))
  | divided (q r : Nat) (hq : q < 2 ^ (widthOf i).bits) (hr : r < 2 ^ (widthOf i).bits)
    (hcmp : isCmp i = false) (hdiv : isDivrem i = true) (hne : ¬ dividesByZero i s) :
    ExecEffect i s (complete (writeR r (writeQ q s)))
  | failed (hcmp : isCmp i = false) (hdiv : isDivrem i = true) (hzero : dividesByZero i s) :
    ExecEffect i s (raise .divisionByZero s)

theorem exists_execEffect_divrem (w : Width) (a : SrcA) (b : SrcB) (s : State) :
    ∃ t, exec (.divrem w a b) s = .next t ∧ ExecEffect (.divrem w a b) s t := by
  have hA := operandA_lt w a s
  by_cases hb : operandB w b s = 0
  · exact ⟨_, execDivrem_of_zero w a b s hb, .failed rfl rfl hb⟩
  · exact ⟨_, execDivrem_of_ne_zero w a b s hb, .divided _ _ ((Nat.div_le_self _ _).trans_lt hA)
      ((Nat.mod_le _ _).trans_lt hA) rfl rfl hb⟩

/-- Every legal command answers a next state, in one of those ways. -/
theorem exists_execEffect (i : Instr) (s : State) :
    ∃ t, exec i s = .next t ∧ ExecEffect i s t := by
  cases i with
  | cmp w a b => exact ⟨_, rfl, .compared _ _ rfl rfl⟩
  | and w a b => exact ⟨_, rfl, .result _ (Nat.and_lt_two_pow _ (operandB_lt w b s)) rfl rfl⟩
  | or w a b =>
    exact ⟨_, rfl, .result _ (Nat.or_lt_two_pow (operandA_lt w a s) (operandB_lt w b s)) rfl rfl⟩
  | xor w a b =>
    exact ⟨_, rfl, .result _ (Nat.xor_lt_two_pow (operandA_lt w a s) (operandB_lt w b s)) rfl rfl⟩
  | not w a b => exact ⟨_, rfl, .result _ (complement_lt w _) rfl rfl⟩
  | shl w a b => exact ⟨_, rfl, .result _ (shiftLeft_lt w _ _) rfl rfl⟩
  | shr w a b => exact ⟨_, rfl, .result _ (shiftRight_lt w (operandA_lt w a s) _) rfl rfl⟩
  | add w a b => exact ⟨_, rfl, .result _ (sumMod_lt w _ _) rfl rfl⟩
  | sub w a b => exact ⟨_, rfl, .result _ (differenceMod_lt w _ _) rfl rfl⟩
  | neg w a b => exact ⟨_, rfl, .result _ (negateMod_lt w _) rfl rfl⟩
  | mul w a b => exact ⟨_, rfl, .result _ (productMod_lt w _ _) rfl rfl⟩
  | divrem w a b => exact exists_execEffect_divrem w a b s
  | bitlen w a b => exact ⟨_, rfl, .result _ (bitLength_lt w (operandA_lt w a s)) rfl rfl⟩

variable {i : Instr} {s t u : State} {c : Command} {rest : List HostAction}

theorem execEffect_of_exec (h : exec i s = .next t) : ExecEffect i s t := by
  obtain ⟨t', ht', heffect⟩ := exists_execEffect i s
  cases ht'.symm.trans h
  exact heffect

/-- Only a DIVREM divides. -/
theorem isDivrem_of_dividesByZero (h : dividesByZero i s) : isDivrem i = true := by
  cases i with
  | divrem w a b => rfl
  | _ => exact h.elim

/-! ### What a step can do -/

theorem step_of_legal (hp : s.pending = .issue c :: rest) (hi : decode c.cmd = .legal i) :
    step s = exec i (samplePorts c rest s) := by
  simp [step_of_pending s _ _ hp, perform, runCommand, hi]

theorem step_of_illegal {why : IllegalReason} (hp : s.pending = .issue c :: rest)
    (hi : decode c.cmd = .illegal why) :
    step s = .next (raise .illegalCommand (samplePorts c rest s)) := by
  simp [step_of_pending s _ _ hp, perform, runCommand, hi]

theorem step_of_reset (hp : s.pending = .reset :: rest) : step s = .next (takeReset rest s) :=
  step_of_pending s _ _ hp

theorem eq_takeReset_of_step (hp : s.pending = .reset :: rest) (h : step s = .next t) :
    t = takeReset rest s := by
  cases (step_of_reset hp).symm.trans h
  rfl

/-- All the ways the step of the issued command `c` can end, once its ports are sampled in `s`: the word
is illegal, or the command it decodes to runs. -/
inductive IssueEffect (c : Command) (s : State) : State → Prop where
  | illegal (why : IllegalReason) (hdec : decode c.cmd = .illegal why) :
    IssueEffect c s (raise .illegalCommand s)
  | legal (i : Instr) (t : State) (hdec : decode c.cmd = .legal i) (heffect : ExecEffect i s t) :
    IssueEffect c s t

theorem issueEffect_of_step (hp : s.pending = .issue c :: rest) (h : step s = .next t) :
    IssueEffect c (samplePorts c rest s) t := by
  cases hdec : decode c.cmd with
  | illegal why =>
    cases (step_of_illegal hp hdec).symm.trans h
    exact .illegal why hdec
  | legal i => exact .legal i t hdec (execEffect_of_exec ((step_of_legal hp hdec).symm.trans h))

/-- A step is idle, takes a reset, or ends an issued command. -/
theorem step_cases (h : step s = .next t) :
    (s.pending = [] ∧ t = s) ∨
    (∃ rest, s.pending = .reset :: rest ∧ t = takeReset rest s) ∨
    (∃ c rest, s.pending = .issue c :: rest ∧ IssueEffect c (samplePorts c rest s) t) := by
  match hp : s.pending with
  | [] =>
    cases (step_of_idle s hp).symm.trans h
    exact .inl ⟨rfl, rfl⟩
  | .reset :: rest => exact .inr (.inl ⟨rest, rfl, eq_takeReset_of_step hp h⟩)
  | .issue c :: rest => exact .inr (.inr ⟨c, rest, rfl, issueEffect_of_step hp h⟩)

/-! ### The invariant -/

/-- CMP leaves exactly one flag set, because the order is total (10_state.md R23). -/
theorem exactlyOneFlag_withCompare (x y : Nat) (st : StatusWord) :
    exactlyOneFlag (withCompare x y st) := by
  simp only [exactlyOneFlag, eqFlag_withCompare, ltFlag_withCompare, gtFlag_withCompare,
    decide_eq_true_eq, decide_eq_false_iff_not]
  omega

@[simp] theorem exactlyOneFlag_withErr (e : BitVec 2) (st : StatusWord) :
    exactlyOneFlag (withErr e st) ↔ exactlyOneFlag st := by simp [exactlyOneFlag]

@[simp] theorem noFlag_withErr (e : BitVec 2) (st : StatusWord) :
    noFlag (withErr e st) ↔ noFlag st := by simp [noFlag]

@[simp] theorem exactlyOneFlag_withSticky (b : Bool) (st : StatusWord) :
    exactlyOneFlag (withSticky b st) ↔ exactlyOneFlag st := by simp [exactlyOneFlag]

@[simp] theorem noFlag_withSticky (b : Bool) (st : StatusWord) :
    noFlag (withSticky b st) ↔ noFlag st := by simp [noFlag]

theorem State.Inv.samplePorts (h : s.Inv) (c : Command) (rest : List HostAction) :
    (samplePorts c rest s).Inv := { h with }

theorem State.Inv.writeQ (h : s.Inv) (v : Nat) : (writeQ v s).Inv :=
  { h with wr_only_after_wq := fun _ => rfl }

/-- R may be written where Q has been (45_divide.md R97). -/
theorem State.Inv.writeR (h : s.Inv) (hq : s.wq = true) (v : Nat) : (writeR v s).Inv :=
  { h with wr_only_after_wq := fun _ => hq }

theorem State.Inv.compared (h : s.Inv) (x y : Nat) :
    ({ s with status := withCompare x y s.status } : State).Inv where
  reserved_zero := by simpa using h.reserved_zero
  err_legal := by simpa using h.err_legal
  error_sticks := by simpa using h.error_sticks
  flags_legal := .inl (exactlyOneFlag_withCompare x y s.status)
  wr_only_after_wq := h.wr_only_after_wq

theorem State.Inv.complete (h : s.Inv) : (complete s).Inv where
  reserved_zero := by simpa using h.reserved_zero
  err_legal := by simp
  error_sticks := by simp
  flags_legal := by simpa using h.flags_legal
  wr_only_after_wq := h.wr_only_after_wq

theorem errorCode_ne_three (e : ErrorKind) : errorCode e ≠ 3 := by cases e <;> decide

theorem errorCode_ne_zero (e : ErrorKind) : errorCode e ≠ 0#2 := by cases e <;> decide

theorem State.Inv.raise (h : s.Inv) (e : ErrorKind) : (raise e s).Inv where
  reserved_zero := by simpa using h.reserved_zero
  err_legal := by simpa using errorCode_ne_three e
  error_sticks := by simp
  flags_legal := by simpa using h.flags_legal
  wr_only_after_wq := h.wr_only_after_wq

theorem errField_zero : errField 0 = 0 := by decide

theorem stickyFlag_zero : stickyFlag 0 = false := by decide

theorem reservedField_zero : reservedField 0 = 0 := by decide

theorem noFlag_zero : noFlag 0 := ⟨by decide, by decide, by decide⟩

theorem State.Inv.of_cleared (hst : s.status = 0) (hwr : s.wr = false) : s.Inv where
  reserved_zero := hst ▸ reservedField_zero
  err_legal := by
    rw [hst, errField_zero]
    decide
  error_sticks := fun h => absurd (hst ▸ errField_zero) h
  flags_legal := .inr (hst ▸ noFlag_zero)
  wr_only_after_wq := by simp [hwr]

theorem ExecEffect.keeps_inv (h : ExecEffect i s t) (hs : s.Inv) : t.Inv := by
  cases h with
  | compared x y => exact (hs.compared x y).complete
  | result v => exact (hs.writeQ v).complete
  | divided q r => exact ((hs.writeQ q).writeR rfl r).complete
  | failed => exact hs.raise _

theorem IssueEffect.keeps_inv (h : IssueEffect c s t) (hs : s.Inv) : t.Inv := by
  cases h with
  | illegal => exact hs.raise _
  | legal _ _ _ heffect => exact heffect.keeps_inv hs

theorem step_keeps_inv (hs : s.Inv) (h : step s = .next t) : t.Inv := by
  obtain ⟨-, rfl⟩ | ⟨rest, -, rfl⟩ | ⟨c, rest, -, heffect⟩ := step_cases h
  · exact hs
  · exact .of_cleared rfl rfl
  · exact heffect.keeps_inv (hs.samplePorts c rest)

/-- Settles O4, by the ways a step can end. -/
theorem everyStepKeepsInvariant : Obligations.EveryStepKeepsInvariant :=
  fun _ _ hs h => step_keeps_inv hs h

/-! ### The fields of STATUS after a command -/

theorem ExecEffect.errField_of_dividesByZero (h : ExecEffect i s t) (hz : dividesByZero i s) :
    errField t.status = 1 := by
  have hd := isDivrem_of_dividesByZero hz
  cases h with
  | compared _ _ _ hdiv => simp [hdiv] at hd
  | result _ _ _ hdiv => simp [hdiv] at hd
  | divided _ _ _ _ _ _ hne => exact absurd hz hne
  | failed => simp [errorCode]

theorem ExecEffect.errField_of_not_dividesByZero (h : ExecEffect i s t)
    (hz : ¬ dividesByZero i s) : errField t.status = 0 := by
  cases h with
  | failed _ _ hzero => exact absurd hzero hz
  | _ => simp

theorem ExecEffect.exactlyOneFlag_of_isCmp (h : ExecEffect i s t) (hc : isCmp i = true) :
    exactlyOneFlag t.status := by
  cases h with
  | compared x y => simpa using exactlyOneFlag_withCompare x y s.status
  | result _ _ hcmp => simp [hcmp] at hc
  | divided _ _ _ _ hcmp => simp [hcmp] at hc
  | failed hcmp => simp [hcmp] at hc

theorem ExecEffect.sameFlags_of_not_isCmp (h : ExecEffect i s t) (hc : isCmp i = false) :
    SameFlags s t := by
  cases h with
  | compared _ _ hcmp => simp [hcmp] at hc
  | _ => simp [SameFlags]

theorem stickyFlag_raise (e : ErrorKind) (s : State) :
    stickyFlag (raise e s).status =
      (stickyFlag s.status || decide (errField (raise e s).status ≠ 0)) := by
  simp [errorCode_ne_zero]

/-- STICKY gathers the errors (10_state.md R24). -/
theorem ExecEffect.stickyFlag_eq (h : ExecEffect i s t) :
    stickyFlag t.status = (stickyFlag s.status || decide (errField t.status ≠ 0)) := by
  cases h with
  | failed => exact stickyFlag_raise _ s
  | _ => simp

theorem IssueEffect.stickyFlag_eq (h : IssueEffect c s t) :
    stickyFlag t.status = (stickyFlag s.status || decide (errField t.status ≠ 0)) := by
  cases h with
  | illegal => exact stickyFlag_raise _ s
  | legal _ _ _ heffect => exact heffect.stickyFlag_eq

theorem ExecEffect.reservedField_eq (h : ExecEffect i s t) :
    reservedField t.status = reservedField s.status := by
  cases h <;> simp

theorem IssueEffect.reservedField_eq (h : IssueEffect c s t) :
    reservedField t.status = reservedField s.status := by
  cases h with
  | illegal => simp
  | legal _ _ _ heffect => exact heffect.reservedField_eq

/-- Settles O37: which way the command ended decides ERR. -/
theorem errDescribesTheLastCommand : Obligations.ErrDescribesTheLastCommand := by
  intro s t c rest hp h
  refine ⟨fun hill => ?_, fun i hi => ?_⟩
  · obtain ⟨why, hdec⟩ := (decode_illegal_iff c.cmd).2 hill
    cases (step_of_illegal hp hdec).symm.trans h
    simp [errorCode]
  · have heffect := execEffect_of_exec ((step_of_legal hp hi).symm.trans h)
    exact ⟨heffect.errField_of_dividesByZero, heffect.errField_of_not_dividesByZero⟩

/-- Settles O38: the comparison is the one effect that writes the flags. -/
theorem onlyCompletedCmpWritesFlags : Obligations.OnlyCompletedCmpWritesFlags := by
  refine ⟨fun s t c rest hp h => ⟨fun i hi hc => ?_, fun hnot => ?_⟩, fun s t rest hp h => ?_⟩
  · exact (execEffect_of_exec ((step_of_legal hp hi).symm.trans h)).exactlyOneFlag_of_isCmp hc
  · cases issueEffect_of_step hp h with
    | illegal => simp [SameFlags]
    | legal i _ hdec heffect => exact heffect.sameFlags_of_not_isCmp (hnot i hdec)
  · cases eq_takeReset_of_step hp h
    exact noFlag_zero

/-- Settles O39: failing sets STICKY beside ERR, and completing keeps STICKY and clears ERR. -/
theorem stickyIsSetByFailureAndClearedByReset :
    Obligations.StickyIsSetByFailureAndClearedByReset := by
  refine ⟨fun s t c rest hp h => (issueEffect_of_step hp h).stickyFlag_eq, fun s t rest hp h => ?_⟩
  cases eq_takeReset_of_step hp h
  exact stickyFlag_zero

/-- Settles O42: a command keeps the reserved bits, a reset writes 0 there. -/
theorem reservedStatusBitsAreNeverWritten : Obligations.ReservedStatusBitsAreNeverWritten := by
  refine ⟨reservedField_zero, fun s t h => ⟨fun hs => ?_, fun c rest hp => ?_⟩⟩
  · obtain ⟨-, rfl⟩ | ⟨rest, -, rfl⟩ | ⟨c, rest, -, heffect⟩ := step_cases h
    · exact hs
    · exact reservedField_zero
    · exact heffect.reservedField_eq.trans hs
  · exact (issueEffect_of_step hp h).reservedField_eq

/-! ### Q and R after a command -/

theorem ExecEffect.r_kept_of_not_isDivrem (h : ExecEffect i s t) (hd : isDivrem i = false) :
    t.r = s.r ∧ t.wr = s.wr ∧ readR t = readR s := by
  cases h with
  | compared => exact ⟨rfl, rfl, rfl⟩
  | result => exact ⟨rfl, rfl, rfl⟩
  | divided _ _ _ _ _ hdiv => simp [hdiv] at hd
  | failed _ hdiv => simp [hdiv] at hd

/-- Settles O41: the two effects that are not a division's do not touch R, and no more does failing. -/
theorem onlyDivremWritesR : Obligations.OnlyDivremWritesR := by
  intro s t c rest hp h hnot
  cases issueEffect_of_step hp h with
  | illegal => exact ⟨rfl, rfl, rfl⟩
  | legal i _ hdec heffect => exact heffect.r_kept_of_not_isDivrem (hnot i hdec)

/-- Settles O43: each effect that writes a register writes a W-bit value. -/
theorem writtenValuesFitTheWidth : Obligations.WrittenValuesFitTheWidth := by
  intro i s t h hc hz
  cases execEffect_of_exec h with
  | compared _ _ hcmp => simp [hcmp] at hc
  | failed _ _ hzero => exact absurd hzero hz
  | result v hv _ hdiv =>
    refine ⟨rfl, ?_, fun hd => by simp [hdiv] at hd⟩
    simpa [(widthOf i).toNat_ofNat_of_lt hv] using hv
  | divided q r hq hr =>
    refine ⟨rfl, ?_, fun _ => ⟨rfl, ?_⟩⟩
    · simpa [(widthOf i).toNat_ofNat_of_lt hq] using hq
    · simpa [(widthOf i).toNat_ofNat_of_lt hr] using hr

/-! ### Runs -/

section

variable {M : Host.Core} {P : M.State → Prop} {s t u : M.State}

theorem run_succ_eq_next (n : Nat) :
    M.run (n + 1) s = .next t ↔ ∃ u, M.step s = .next u ∧ M.run n u = .next t := by
  cases h : M.step s <;> simp [Host.Core.run, h]

/-- What every step keeps, a run keeps. -/
theorem run_keeps (hstep : ∀ s t, P s → M.step s = .next t → P t) (n : Nat) (hs : P s)
    (h : M.run n s = .next t) : P t := by
  induction n generalizing s with
  | zero => cases h; exact hs
  | succ n ih =>
    obtain ⟨u, hu, hrun⟩ := (run_succ_eq_next n).1 h
    exact ih (hstep s u hs hu) hrun

/-- A longer run goes on from where a shorter one ended. -/
theorem run_of_run_add (k m : Nat) (hk : M.run k s = .next u) (h : M.run (k + m) s = .next t) :
    M.run m u = .next t := by
  induction k generalizing s with
  | zero => cases hk; simpa using h
  | succ k ih =>
    rw [Nat.succ_add] at h
    obtain ⟨v, hv, hrun⟩ := (run_succ_eq_next k).1 hk
    obtain ⟨v', hv', hrun'⟩ := (run_succ_eq_next _).1 h
    cases hv.symm.trans hv'
    exact ih hrun hrun'

end

theorem ExecEffect.pending_eq (h : ExecEffect i s t) : t.pending = s.pending := by
  cases h <;> rfl

theorem IssueEffect.pending_eq (h : IssueEffect c s t) : t.pending = s.pending := by
  cases h with
  | illegal => rfl
  | legal _ _ _ heffect => exact heffect.pending_eq

/-- A step issues nothing for the host. -/
theorem step_pending (h : step s = .next t) : t.pending = s.pending.tail := by
  obtain ⟨hp, rfl⟩ | ⟨rest, hp, rfl⟩ | ⟨c, rest, hp, heffect⟩ := step_cases h
  · simp [hp]
  · simp [hp]
  · simp [hp, heffect.pending_eq]

/-- No reset is to come. -/
def NoResetPending (s : State) : Prop := HostAction.reset ∉ s.pending

theorem step_keeps_noResetPending (hs : NoResetPending s) (h : step s = .next t) :
    NoResetPending t := by
  rw [NoResetPending, step_pending h]
  exact fun hmem => hs (List.mem_of_mem_tail hmem)

/-- STICKY is set, and no reset is to come that would clear it. -/
def StickyForGood (s : State) : Prop := NoResetPending s ∧ stickyFlag s.status = true

theorem step_keeps_stickyForGood (hs : StickyForGood s) (h : step s = .next t) :
    StickyForGood t := by
  obtain ⟨hno, hset⟩ := hs
  refine ⟨step_keeps_noResetPending hno h, ?_⟩
  obtain ⟨-, rfl⟩ | ⟨rest, hp, -⟩ | ⟨c, rest, -, heffect⟩ := step_cases h
  · exact hset
  · simp [NoResetPending, hp] at hno
  · simp [heffect.stickyFlag_eq, hset]

/-- Settles O40: an error is in STICKY where it is recorded, and stays there to the end of the run. -/
theorem oneReadOfStickyChecksTheWholeRun : Obligations.OneReadOfStickyChecksTheWholeRun := by
  intro n k s t u hinv hno hkn hu ht hclear
  by_contra herr
  obtain ⟨m, rfl⟩ := Nat.exists_eq_add_of_le hkn
  have hinv' : u.Inv :=
    run_keeps (M := Sys2Proof.core) (P := State.Inv) (fun _ _ => step_keeps_inv) k hinv hu
  have hno' : NoResetPending u :=
    run_keeps (M := Sys2Proof.core) (P := NoResetPending) (fun _ _ => step_keeps_noResetPending)
      k hno hu
  obtain ⟨-, hset⟩ : StickyForGood t :=
    run_keeps (M := Sys2Proof.core) (P := StickyForGood) (fun _ _ => step_keeps_stickyForGood)
      m ⟨hno', hinv'.error_sticks herr⟩ (run_of_run_add k m hu ht)
  simp [hset] at hclear

/-! ### Reset and the step -/

/-- Settles O1: each field of the cleared STATUS is 0. -/
theorem resetClearsStatusAndWrittenBits : Obligations.ResetClearsStatusAndWrittenBits :=
  ⟨⟨rfl, rfl, rfl⟩, fun _ _ hp =>
    ⟨_, step_of_reset hp, errField_zero, noFlag_zero, stickyFlag_zero, reservedField_zero, rfl, rfl⟩⟩

/-- Settles O2: with WQ and WR cleared, reads give the free contents of the new reset count. -/
theorem resetLeavesQAndRUnspecified : Obligations.ResetLeavesQAndRUnspecified :=
  fun s rest hp =>
    ⟨_, step_of_reset hp, readQ_takeReset s rest, readR_takeReset s rest, rfl, rfl⟩

/-- Settles O3: the reset state is a cleared state. -/
theorem resetStateMeetsInvariant : Obligations.ResetStateMeetsInvariant :=
  .of_cleared rfl rfl

/-- Settles O6: sampling the ports is the state the statement writes out. -/
theorem stepRunsDecodedCommand : Obligations.StepRunsDecodedCommand :=
  fun _ _ _ _ hp hi => step_of_legal hp hi

end Machine
end Sys2Proof
end

section
/-! SUPPORT. The unit has no memory (20_memory.md R34): what this chapter says is in what order the host's
actions are taken (R42), and which bits of a value the 64-bit port words are (R36). -/

namespace Sys2Proof.Machine

/-! ### No action depends on those after it (20_memory.md R42) -/

/-- `s` with `actions` as all that the host still does. -/
def State.withPending (s : State) (actions : List HostAction) : State := { s with pending := actions }

theorem withPending_eq_self {s : State} {actions : List HostAction} (h : s.pending = actions) :
    s.withPending actions = s := by
  subst h
  rfl

/-- A command reads nothing of what the host does next, and leaves it as it is. -/
theorem exec_withPending {i : Instr} {s t : State} (h : exec i s = .next t)
    (later : List HostAction) : exec i (s.withPending later) = .next (t.withPending later) := by
  cases i with
  | divrem w a b =>
    by_cases hb : operandB w b s = 0
    · cases (execDivrem_of_zero w a b s hb).symm.trans h
      exact execDivrem_of_zero w a b (s.withPending later) hb
    · cases (execDivrem_of_ne_zero w a b s hb).symm.trans h
      exact execDivrem_of_ne_zero w a b (s.withPending later) hb
  | _ => cases h; rfl

/-- The step of an action ends in one next state, whatever the host does after it. -/
theorem exists_step_next (action : HostAction) (s : State) :
    ∃ t : State, ∀ later, step (s.withPending (action :: later)) = .next (t.withPending later) := by
  cases action with
  | reset => exact ⟨takeReset [] s, fun _ => step_of_reset rfl⟩
  | issue c =>
    cases hdec : decode c.cmd with
    | illegal why =>
      exact ⟨raise .illegalCommand (samplePorts c [] s), fun later =>
        step_of_illegal (s := s.withPending (.issue c :: later)) rfl hdec⟩
    | legal i =>
      obtain ⟨t, hexec, -⟩ := exists_execEffect i (samplePorts c [] s)
      exact ⟨t, fun later => (step_of_legal rfl hdec).trans (exec_withPending hexec later)⟩

/-- The actions of `first` are taken in as many steps, to one state whatever the host does after them. -/
theorem exists_run_next (first : List HostAction) (s : State) :
    ∃ t : State, ∀ later,
      Host.Core.run Sys2Proof.core first.length (s.withPending (first ++ later)) =
        .next (t.withPending later) := by
  induction first generalizing s with
  | nil => exact ⟨s, fun _ => rfl⟩
  | cons action first ih =>
    obtain ⟨u, hstep⟩ := exists_step_next action s
    obtain ⟨t, hrun⟩ := ih u
    exact ⟨t, fun later => (run_succ_eq_next _).2 ⟨_, hstep (first ++ later), hrun later⟩⟩

/-- Settles O8: what the run of the first actions ends in is the same with `later` after them and with
nothing after them. -/
theorem actionsRunInIssueOrder : Obligations.ActionsRunInIssueOrder := by
  intro s first later hp
  obtain ⟨t, hrun⟩ := exists_run_next first s
  refine ⟨t.withPending later, ?_, rfl, ?_⟩
  · rw [← withPending_eq_self hp]
    exact hrun later
  · have halone := hrun []
    rw [List.append_nil] at halone
    exact halone

/-! ### Port words are places of a value (20_memory.md R36) -/

/-- A port word is a digit of the value in base 2^64. -/
theorem toNat_portLane (k : Fin 4) (v : Word) :
    (portLane k v).toNat = v.toNat / 2 ^ (64 * k.val) % 2 ^ 64 := by
  rw [portLane, BitVec.extractLsb'_toNat, Nat.shiftRight_eq_div_pow]

theorem toNat_append_eq_add {m n : Nat} (x : BitVec m) (y : BitVec n) :
    (x ++ y).toNat = x.toNat * 2 ^ n + y.toNat := by
  rw [BitVec.toNat_append, ← Nat.shiftLeft_add_eq_or_of_lt y.isLt, Nat.shiftLeft_eq]

theorem toNat_ofLanes (w3 w2 w1 w0 : BitVec 64) :
    (ofLanes w3 w2 w1 w0).toNat =
      w3.toNat * 2 ^ 192 + w2.toNat * 2 ^ 128 + w1.toNat * 2 ^ 64 + w0.toNat := by
  simp only [ofLanes, toNat_append_eq_add]
  omega

/-- The digits of a value, put in their places, add up to it. -/
theorem toNat_eq_sum_portLane (v : Word) :
    v.toNat = (portLane 3 v).toNat * 2 ^ 192 + (portLane 2 v).toNat * 2 ^ 128 +
      (portLane 1 v).toNat * 2 ^ 64 + (portLane 0 v).toNat := by
  simp only [toNat_portLane, Fin.coe_ofNat_eq_mod, Nat.reduceMod, Nat.reduceMul]
  omega

theorem portLane_ofLanes (w3 w2 w1 w0 : BitVec 64) :
    portLane 3 (ofLanes w3 w2 w1 w0) = w3 ∧ portLane 2 (ofLanes w3 w2 w1 w0) = w2 ∧
      portLane 1 (ofLanes w3 w2 w1 w0) = w1 ∧ portLane 0 (ofLanes w3 w2 w1 w0) = w0 := by
  simp only [← BitVec.toNat_inj, toNat_portLane, toNat_ofLanes, Fin.coe_ofNat_eq_mod,
    Nat.reduceMod, Nat.reduceMul]
  omega

theorem ofLanes_zero_eq_ofScalar (x : BitVec 64) : ofLanes 0 0 0 x = ofScalar x := by
  apply BitVec.eq_of_toNat_eq
  simp only [toNat_ofLanes, ofScalar, BitVec.toNat_setWidth, BitVec.ofNat_eq_ofNat,
    BitVec.toNat_ofNat]
  omega

/-- Settles O54, in natural arithmetic: a value is its digits in base 2^64. -/
theorem portWordsArePlacesOfAValue : Obligations.PortWordsArePlacesOfAValue :=
  ⟨toNat_eq_sum_portLane, portLane_ofLanes, ofLanes_zero_eq_ofScalar⟩

end Sys2Proof.Machine
end

section
/-! SUPPORT. The words of commands and back (30_encoding.md R45 to R56), what a command reads and writes
(R51 to R54), and the assembler's words and text (R58 to R62). -/

namespace Sys2Proof

/-! ### Decode and encode agree (30_encoding.md R45 to R56) -/

section

variable {op : BitVec 6} {command : Width → SrcA → SrcB → Instr} {w : Width} {a : SrcA} {b : SrcB}
  {c : CmdWord} {i : Instr}

theorem encodeWidth_decodeWidth (f : BitVec 1) : encodeWidth (decodeWidth f) = f := by
  revert f; decide

theorem encodeSrcA_of_decodeSrcA {f : BitVec 2} (h : decodeSrcA f = some a) : encodeSrcA a = f := by
  cases a <;> revert f <;> decide

theorem encodeSrcB_of_decodeSrcB {f : BitVec 2} (h : decodeSrcB f = some b) : encodeSrcB b = f := by
  cases b <;> revert f <;> decide

/-- The encoder gives each command the OP value that the opcode map reads as it (30_encoding.md R53). -/
theorem encode_of_decodeOp (h : decodeOp op = some command) :
    encode (command w a b) = commandWord op w a b := by
  unfold decodeOp at h
  split at h <;> cases h
  all_goals
    next hop => exact congrArg (commandWord · w a b) (BitVec.eq_of_toNat_eq hop.symm)

theorem decode_commandWord (h : decodeOp op = some command) :
    decode (commandWord op w a b) = .legal (command w a b) := by
  simp [decode, h]

theorem decode_encode (i : Instr) : decode (encode i) = .legal i := by
  cases i <;> exact decode_commandWord rfl

/-- A legal word has RSV = 0 and each other field decodes to its part of the command. -/
theorem fields_of_decode (h : decode c = .legal i) :
    ∃ command a b, rsvField c = 0 ∧ decodeOp (opField c) = some command ∧
      decodeSrcA (saField c) = some a ∧ decodeSrcB (sbField c) = some b ∧
      i = command (decodeWidth (wdField c)) a b := by
  unfold decode at h
  split at h
  case isFalse => cases h
  case isTrue hrsv =>
    split at h
    · cases h
    next command hop =>
      split at h
      · cases h
      next a ha =>
        split at h
        · cases h
        next b hb =>
          cases h
          exact ⟨command, a, b, hrsv, hop, ha, hb, rfl⟩

theorem encode_of_decode (h : decode c = .legal i) : encode i = c := by
  obtain ⟨command, a, b, hrsv, hop, ha, hb, rfl⟩ := fields_of_decode h
  calc encode (command (decodeWidth (wdField c)) a b)
      = commandWord (opField c) (decodeWidth (wdField c)) a b := encode_of_decodeOp hop
    _ = rsvField c ++ sbField c ++ saField c ++ wdField c ++ opField c := by
        rw [commandWord, encodeSrcB_of_decodeSrcB hb, encodeSrcA_of_decodeSrcA ha,
          encodeWidth_decodeWidth, hrsv]
        rfl
    _ = c := word_of_fields c

theorem decode_eq_legal_iff : decode c = .legal i ↔ c = encode i :=
  ⟨fun h => (encode_of_decode h).symm, fun h => h ▸ decode_encode i⟩

end

/-- Settles O10: a legal word is put together again from the fields it decodes to. -/
theorem decodeAndEncodeAgree : Obligations.DecodeAndEncodeAgree :=
  fun _ _ => decode_eq_legal_iff

/-- Settles O11: each word is its command's encoding. -/
theorem specWordsDecodeToTheirCommands : Obligations.SpecWordsDecodeToTheirCommands := by
  simp only [Obligations.SpecWordsDecodeToTheirCommands, decode_eq_legal_iff]
  decide

namespace Machine

/-- Settles O9: the decoder answers legal or illegal, and illegal exactly by R54. -/
theorem decodeAcceptsExactlyLegalWords : Obligations.DecodeAcceptsExactlyLegalWords := by
  intro c
  rw [← decode_illegal_iff]
  cases decode c <;> simp

/-! ### The assembled word (30_encoding.md R59 to R61) -/

theorem toNat_encodeWidth (w : Width) : (encodeWidth w).toNat = widthNumber w := by
  cases w <;> rfl

theorem toNat_encodeSrcA (a : SrcA) : (encodeSrcA a).toNat = srcANumber a := by
  cases a <;> rfl

theorem toNat_encodeSrcB (b : SrcB) : (encodeSrcB b).toNat = srcBNumber b := by
  cases b <;> rfl

/-- The five fields of a command word are its places (30_encoding.md R45). -/
theorem toNat_commandWord (op : BitVec 6) (w : Width) (a : SrcA) (b : SrcB) :
    (commandWord op w a b).toNat =
      op.toNat + 2 ^ 6 * widthNumber w + 2 ^ 7 * srcANumber a + 2 ^ 9 * srcBNumber b := by
  simp only [commandWord, toNat_append_eq_add, toNat_encodeWidth, toNat_encodeSrcA,
    toNat_encodeSrcB, BitVec.toNat_ofNat]
  omega

/-- Fields that do not overlap are put together by `|||` as by `+`. -/
theorem or_fields_eq_add {op wd sa : Nat} (sb : Nat) (hop : op < 2 ^ 6) (hwd : wd < 2)
    (hsa : sa < 2 ^ 2) :
    op ||| wd <<< 6 ||| sa <<< 7 ||| sb <<< 9 = op + 2 ^ 6 * wd + 2 ^ 7 * sa + 2 ^ 9 * sb := by
  have h6 : wd <<< 6 ||| op = wd <<< 6 + op := (Nat.shiftLeft_add_eq_or_of_lt hop wd).symm
  have h7 : sa <<< 7 ||| (wd <<< 6 + op) = sa <<< 7 + (wd <<< 6 + op) :=
    (Nat.shiftLeft_add_eq_or_of_lt (by omega) sa).symm
  have h9 : sb <<< 9 ||| (sa <<< 7 + (wd <<< 6 + op)) = sb <<< 9 + (sa <<< 7 + (wd <<< 6 + op)) :=
    (Nat.shiftLeft_add_eq_or_of_lt (by omega) sb).symm
  rw [Nat.or_comm, Nat.or_comm _ (sa <<< 7), Nat.or_comm op, h6, h7, h9]
  omega

theorem opcodeOf_lt (m : Mnemonic) : opcodeOf m < 2 ^ 6 := by cases m <;> decide

theorem widthNumber_lt (w : Width) : widthNumber w < 2 := by cases w <;> decide

theorem srcANumber_lt (a : SrcA) : srcANumber a < 2 ^ 2 := by cases a <;> decide

/-- The source that SB names in a line's word: PB for a unary mnemonic (30_encoding.md R59). -/
def assembledSrcB (l : AsmLine) : SrcB := if isUnary l.mnemonic then .pb else l.b

theorem assembledB_eq (l : AsmLine) : assembledB l = srcBNumber (assembledSrcB l) := by
  unfold assembledB assembledSrcB
  split <;> rfl

theorem srcBNumber_lt (b : SrcB) : srcBNumber b < 2 ^ 2 := by cases b <;> decide

theorem toNat_assemble (l : AsmLine) :
    (assemble l).toNat = opcodeOf l.mnemonic + 2 ^ 6 * widthNumber l.width +
      2 ^ 7 * srcANumber l.a + 2 ^ 9 * assembledB l := by
  have hop := opcodeOf_lt l.mnemonic
  have hwd := widthNumber_lt l.width
  have hsa := srcANumber_lt l.a
  have hsb : assembledB l < 2 ^ 2 := assembledB_eq l ▸ srcBNumber_lt _
  rw [assemble, or_fields_eq_add _ hop hwd hsa, BitVec.toNat_ofNat]
  omega

/-- A pseudo-instruction's command has the OP value of the mnemonic (30_encoding.md R60, R61). -/
theorem encode_commandOf (l : AsmLine) :
    encode (commandOf l) =
      commandWord (BitVec.ofNat 6 (opcodeOf l.mnemonic)) l.width l.a (assembledSrcB l) := by
  obtain ⟨m, w, a, b⟩ := l
  cases m <;> rfl

theorem assemble_eq_encode (l : AsmLine) : assemble l = encode (commandOf l) := by
  apply BitVec.eq_of_toNat_eq
  rw [encode_commandOf, toNat_assemble, toNat_commandWord, assembledB_eq, BitVec.toNat_ofNat,
    Nat.mod_eq_of_lt (opcodeOf_lt _)]

theorem decode_assemble (l : AsmLine) : decode (assemble l) = .legal (commandOf l) :=
  decode_eq_legal_iff.2 (assemble_eq_encode l)

/-- Settles O12: the word is the formula, and the formula is the encoding of the line's command. -/
theorem assembledWordIsTheFormulaAndDecodes : Obligations.AssembledWordIsTheFormulaAndDecodes := by
  intro l
  refine ⟨?_, decode_assemble l⟩
  have hwd : widthNumber l.width = if l.width = .w256 then 1 else 0 := by cases l.width <;> rfl
  rw [toNat_assemble, hwd]
  rfl

/-! ### Disassembled text reads back (30_encoding.md R58, R62) -/

theorem toList_printLine (l : AsmLine) :
    (printLine l).toList = (mnemonicText l.mnemonic).toList ++ '.' :: ((widthText l.width).toList ++
      ' ' :: ((srcAText l.a).toList ++
        if isUnary l.mnemonic then [] else ',' :: ' ' :: (srcBText l.b).toList)) := by
  unfold printLine
  split <;> simp

section

variable (cs : List Char)

theorem takeLetters_mnemonicText (m : Mnemonic) :
    takeLetters (skipBlanks ((mnemonicText m).toList ++ '.' :: cs)) =
      ((mnemonicText m).toList, '.' :: cs) := by
  cases m <;> rfl

theorem findMnemonic_mnemonicText (m : Mnemonic) :
    findMnemonic (mnemonicText m).toList = some m := by
  cases m <;> decide

theorem parseWidth_widthText (w : Width) :
    parseWidth ('.' :: ((widthText w).toList ++ cs)) = some (w, cs) := by
  cases w <;> rfl

theorem parseSrcA_srcAText (a : SrcA) :
    parseSrcA (skipBlanks ((srcAText a).toList ++ cs)) = some (a, cs) := by
  cases a <;> rfl

theorem parseSecondOperand_srcBText (b : SrcB) :
    parseSecondOperand (',' :: ' ' :: (srcBText b).toList) = some (b, []) := by
  cases b <;> rfl

end

/-- A printed line reads back, where the operand a unary mnemonic does not print is PB. -/
theorem parseLine_printLine (l : AsmLine) (hb : isUnary l.mnemonic = true → l.b = .pb) :
    parseLine (printLine l) = some l := by
  obtain ⟨m, w, a, b⟩ := l
  have hcommand : parseCommand (printLine ⟨m, w, a, b⟩).toList = some (⟨m, w, a, b⟩, []) := by
    rw [toList_printLine]
    cases hm : isUnary m with
    | true =>
      obtain rfl : b = .pb := hb hm
      simp [-List.append_nil, parseCommand, takeLetters_mnemonicText, findMnemonic_mnemonicText,
        parseWidth_widthText, parseSrcA_srcAText, hm]
    | false =>
      simp [parseCommand, takeLetters_mnemonicText, findMnemonic_mnemonicText,
        parseWidth_widthText, parseSrcA_srcAText, parseSecondOperand_srcBText, hm]
  simp [parseLine, hcommand, skipBlanks]

theorem lineOf_b_of_isUnary (i : Instr) (h : isUnary (lineOf i).mnemonic = true) :
    (lineOf i).b = .pb := by
  cases i with
  | not | neg | bitlen => rfl
  | _ => cases h

/-- The printed form of a binary command stands for it; that of a unary one has lost its SB. -/
theorem commandOf_lineOf (i : Instr) (h : sourceBOf i ≠ none) : commandOf (lineOf i) = i := by
  cases i with
  | not | neg | bitlen => exact absurd rfl h
  | _ => rfl

/-- Settles O13: the disassembler prints the line of the decoded command, which reads back. -/
theorem disassemblyReadsBack : Obligations.DisassemblyReadsBack := by
  intro c
  refine ⟨fun i hi => ⟨?_, fun hb => ?_⟩, fun hill => ?_⟩
  · have hprint : disassemble c = printLine (lineOf i) := by simp [disassemble, hi]
    rw [hprint]
    exact parseLine_printLine _ (lineOf_b_of_isUnary i)
  · rw [assemble_eq_encode, commandOf_lineOf i hb, encode_of_decode hi]
  · obtain ⟨why, hdec⟩ := (decode_illegal_iff c).2 hill
    simp [disassemble, hdec]

/-- Settles O53: the comparisons assemble as CMP, whose flags are the order's. -/
theorem comparisonsReadTheOrderFromStatus : Obligations.ComparisonsReadTheOrderFromStatus := by
  intro w a b s
  refine ⟨fun m hm => ?_, _, rfl, ?_⟩
  · have hcmp : commandOf ⟨m, w, a, b⟩ = .cmp w a b := by
      fin_cases hm <;> rfl
    rw [decode_assemble, hcmp]
  · simp [comparisonResult, hostReadStatus, le_iff_lt_or_eq, eq_comm]

/-! ### Operands (30_encoding.md R51, R52) -/

/-- Settles O14: a written register reads as it is stored. -/
theorem operandsAreLowBitsOfSelectedSource : Obligations.OperandsAreLowBitsOfSelectedSource := by
  refine fun w s => ⟨rfl, rfl, fun hq => ?_, fun hr => ?_⟩
  · simp [operandA, operandB, sourceA, sourceB, readQ_of_written s hq]
  · simp [operandA, operandB, sourceA, sourceB, readR_of_written s hr]

section

variable {w : Width} {s t : State}

theorem AgreesBelow.operandA_eq (h : AgreesBelow w s t) (a : SrcA) :
    operandA w a t = operandA w a s := by
  cases a with
  | pa => exact h.pa
  | q => exact h.q
  | r => exact h.r

theorem AgreesBelow.operandB_eq (h : AgreesBelow w s t) (b : SrcB) :
    operandB w b t = operandB w b s := by
  cases b with
  | pb => exact h.pb
  | q => exact h.q
  | r => exact h.r

end

theorem unaryToQ_eq_binaryToQ (w : Width) (a : SrcA) (f : Nat → Nat) (s : State) :
    unaryToQ w a f s = binaryToQ w a .pb (fun x _ => f x) s := rfl

/-- Every command but CMP and DIVREM writes to Q one function of operands of its width. -/
theorem exec_eq_binaryToQ (i : Instr) (hc : isCmp i = false) (hd : isDivrem i = false) :
    ∃ a b f, ∀ s, exec i s = binaryToQ (widthOf i) a b f s := by
  cases i with
  | cmp => cases hc
  | divrem => cases hd
  | not w a | neg w a | bitlen w a => exact ⟨a, .pb, _, unaryToQ_eq_binaryToQ w a _⟩
  | _ w a b => exact ⟨a, b, _, fun _ => rfl⟩

/-- What the command `i` from `s` writes to STATUS, Q and R is the same in `s'` and `t'`. -/
def SameWrites (i : Instr) (s s' t' : State) : Prop :=
  t'.status = s'.status ∧ (isCmp i = false → ¬ dividesByZero i s → t'.q = s'.q) ∧
    (isDivrem i = true → ¬ dividesByZero i s → t'.r = s'.r)

section

variable {i : Instr} {w : Width} {s t : State}

theorem AgreesBelow.exec_cmp (h : AgreesBelow w s t) (a : SrcA) (b : SrcB) :
    ∃ s' t', exec (.cmp w a b) s = .next s' ∧ exec (.cmp w a b) t = .next t' ∧
      SameWrites (.cmp w a b) s s' t' := by
  refine ⟨_, _, rfl, rfl, ?_, nofun, nofun⟩
  simp [h.operandA_eq, h.operandB_eq, h.status]

/-- The zero-divisor test is of the operand too (92_eei_decisions.md D29). -/
theorem AgreesBelow.exec_divrem (h : AgreesBelow w s t) (a : SrcA) (b : SrcB) :
    ∃ s' t', exec (.divrem w a b) s = .next s' ∧ exec (.divrem w a b) t = .next t' ∧
      SameWrites (.divrem w a b) s s' t' := by
  have hA := h.operandA_eq a
  have hB := h.operandB_eq b
  by_cases hb : operandB w b s = 0
  · refine ⟨_, _, execDivrem_of_zero w a b s hb, execDivrem_of_zero w a b t (hB.trans hb), ?_,
      fun _ hne => absurd hb hne, fun _ hne => absurd hb hne⟩
    simp [h.status]
  · refine ⟨_, _, execDivrem_of_ne_zero w a b s hb,
      execDivrem_of_ne_zero w a b t (hB.trans_ne hb), ?_, fun _ _ => ?_, fun _ _ => ?_⟩
    · simp [h.status]
    · simp [hA, hB]
    · simp [hA, hB]

theorem AgreesBelow.exec_binaryToQ (h : AgreesBelow (widthOf i) s t) (hc : isCmp i = false)
    (hd : isDivrem i = false) :
    ∃ s' t', exec i s = .next s' ∧ exec i t = .next t' ∧ SameWrites i s s' t' := by
  obtain ⟨a, b, f, hexec⟩ := exec_eq_binaryToQ i hc hd
  refine ⟨_, _, hexec s, hexec t, ?_, fun _ _ => ?_, fun hd' => by simp [hd] at hd'⟩
  · simp [h.status]
  · simp [h.operandA_eq, h.operandB_eq]

end

/-- Settles O15: a command reads its sources as operands only, and those agree. -/
theorem bitsAboveWidthAreIgnored : Obligations.BitsAboveWidthAreIgnored := by
  intro i s t h
  cases i with
  | cmp w a b => exact h.exec_cmp a b
  | divrem w a b => exact h.exec_divrem a b
  | _ => exact h.exec_binaryToQ rfl rfl

/-- `s` with `pb` on port PB. -/
def State.withPB (s : State) (pb : Word) : State := { s with ports := { s.ports with pb := pb } }

theorem operandA_withPB (w : Width) (a : SrcA) (s : State) (pb : Word) :
    operandA w a (s.withPB pb) = operandA w a s := by
  cases a <;> rfl

/-- The shape of a unary command does not read PB and keeps it. -/
theorem unaryToQ_withPB (w : Width) (a : SrcA) (f : Nat → Nat) (s : State) (pb : Word) :
    ∃ t, unaryToQ w a f s = .next t ∧ unaryToQ w a f (s.withPB pb) = .next (t.withPB pb) := by
  refine ⟨_, unaryToQ_eq w a f s, ?_⟩
  rw [unaryToQ_eq, operandA_withPB]
  rfl

/-- Settles O16: the three commands have the unary shape, whatever their SB. -/
theorem unaryCommandsIgnoreSbAndPb : Obligations.UnaryCommandsIgnoreSbAndPb := by
  intro w a b b' pb' s pair hpair
  fin_cases hpair
  · exact unaryToQ_withPB w a (complement w) s pb'
  · exact unaryToQ_withPB w a (negateMod w) s pb'
  · exact unaryToQ_withPB w a bitLength s pb'

/-! ### Frames (30_encoding.md R53, R54) -/

section

variable {i : Instr} {s t : State}

theorem ExecEffect.sameSurroundings (h : ExecEffect i s t) : SameSurroundings s t := by
  cases h <;> exact ⟨rfl, rfl, rfl⟩

theorem ExecEffect.sameResults_of_isCmp (h : ExecEffect i s t) (hc : isCmp i = true) :
    SameResults s t := by
  cases h with
  | compared => exact ⟨rfl, rfl, rfl, rfl⟩
  | result _ _ hcmp => simp [hcmp] at hc
  | divided _ _ _ _ hcmp => simp [hcmp] at hc
  | failed hcmp => simp [hcmp] at hc

theorem ExecEffect.sameResults_of_dividesByZero (h : ExecEffect i s t) (hz : dividesByZero i s) :
    SameResults s t := by
  have hd := isDivrem_of_dividesByZero hz
  cases h with
  | compared _ _ _ hdiv => simp [hdiv] at hd
  | result _ _ _ hdiv => simp [hdiv] at hd
  | divided _ _ _ _ _ _ hne => exact absurd hz hne
  | failed => exact ⟨rfl, rfl, rfl, rfl⟩

theorem statusKeptButErr_of_withErr {e : BitVec 2} (h : t.status = withErr e s.status) :
    StatusKeptButErr s t :=
  fun k hk => by rw [h, getLsbD_withErr, if_neg (by omega)]

theorem ExecEffect.statusKeptButErr (h : ExecEffect i s t) (hc : isCmp i = false)
    (hz : ¬ dividesByZero i s) : StatusKeptButErr s t := by
  cases h with
  | compared _ _ hcmp => simp [hcmp] at hc
  | result => exact statusKeptButErr_of_withErr rfl
  | divided => exact statusKeptButErr_of_withErr rfl
  | failed _ _ hzero => exact absurd hzero hz

theorem isCmp_eq_false_of_isDivrem (h : isDivrem i = true) : isCmp i = false := by
  cases i with
  | divrem => rfl
  | _ => cases h

theorem not_dividesByZero_of_isCmp (h : isCmp i = true) : ¬ dividesByZero i s := by
  cases i with
  | cmp => exact id
  | _ => cases h

end

/-- Settles O34: each effect writes its destinations and nothing else. -/
theorem commandsChangeOnlyTheirDestinations : Obligations.CommandsChangeOnlyTheirDestinations := by
  intro i s t h
  have heffect := execEffect_of_exec h
  refine ⟨heffect.sameSurroundings, heffect.reservedField_eq, fun hc => ?_,
    heffect.sameFlags_of_not_isCmp, fun hc hd => ?_, fun hd hne => ?_, fun _ hz => ?_⟩
  · have herr := heffect.errField_of_not_dividesByZero (not_dividesByZero_of_isCmp hc)
    exact ⟨heffect.sameResults_of_isCmp hc, by simpa [herr] using heffect.stickyFlag_eq⟩
  · obtain ⟨hr, hwr, -⟩ := heffect.r_kept_of_not_isDivrem hd
    have hne : ¬ dividesByZero i s := fun hz => by simp [isDivrem_of_dividesByZero hz] at hd
    exact ⟨hr, hwr, heffect.statusKeptButErr hc hne⟩
  · exact heffect.statusKeptButErr (isCmp_eq_false_of_isDivrem hd) hne
  · exact heffect.sameResults_of_dividesByZero hz

/-- Settles O36: a refused word raises IllegalCommand before anything else is read. -/
theorem illegalWordFailsAndDoesNothingElse : Obligations.IllegalWordFailsAndDoesNothingElse := by
  intro s c rest hp hill
  obtain ⟨why, hdec⟩ := (decode_illegal_iff c.cmd).2 hill
  exact ⟨_, step_of_illegal hp hdec, raise_failsWith .illegalCommand (samplePorts c rest s)⟩

end Machine
end Sys2Proof
end

section
/-! SUPPORT. CMP and its order: what the flags say after it (40_compare.md R63, R65), the order by limbs
(R64), and a wide value against a native scalar (R66). -/

namespace Sys2Proof.Machine

/-! ### The flags after CMP (40_compare.md R63, R65) -/

/-- Settles O18: CMP writes the flags of a total order, then completes. -/
theorem cmpSetsExactlyTheFlagOfTheOrder : Obligations.CmpSetsExactlyTheFlagOfTheOrder := by
  intro w a b s
  obtain ⟨t, hexec, heffect⟩ := exists_execEffect (.cmp w a b) s
  have hstatus : t.status = withErr 0 (withCompare (operandA w a s) (operandB w b s) s.status) := by
    cases hexec
    rfl
  have herr := heffect.errField_of_not_dividesByZero (not_dividesByZero_of_isCmp rfl)
  refine ⟨t, hexec, ?_, ?_, ?_, heffect.exactlyOneFlag_of_isCmp rfl, herr, ?_,
    heffect.reservedField_eq, heffect.sameResults_of_isCmp rfl, heffect.sameSurroundings⟩
  · simp [hstatus]
  · simp [hstatus]
  · simp [hstatus]
  · simp [hstatus]

/-! ### The order by limbs (40_compare.md R64) -/

theorem eq_iff_upper_lower (k x y : Nat) :
    x = y ↔ upper k x = upper k y ∧ lower k x = lower k y :=
  Nat.ext_div_mod_iff (2 ^ limbBits k) x y

/-- The order is the lexicographic order of the limbs, `hi` first, because `lo` is less than the base. -/
theorem lt_iff_upper_lower (k x y : Nat) :
    x < y ↔ upper k x < upper k y ∨ upper k x = upper k y ∧ lower k x < lower k y := by
  have hx : 2 ^ limbBits k * upper k x + lower k x = x := Nat.div_add_mod _ _
  have hy : 2 ^ limbBits k * upper k y + lower k y = y := Nat.div_add_mod _ _
  rcases Nat.lt_trichotomy (upper k x) (upper k y) with hlt | heq | hgt
  · have : x < y := Nat.lt_of_div_lt_div hlt
    simp [this, hlt]
  · rw [heq] at hx
    omega
  · have : y < x := Nat.lt_of_div_lt_div hgt
    omega

/-- No bound on the values is needed: the uppermost limb is compared whole. -/
theorem limbEq_eq_decide (k x y : Nat) : limbEq k x y = decide (x = y) := by
  induction k generalizing x y with
  | zero => rfl
  | succ k ih => simp only [limbEq, ih, eq_iff_upper_lower k x y, Bool.decide_and]

theorem limbLt_eq_decide (k x y : Nat) : limbLt k x y = decide (x < y) := by
  induction k generalizing x y with
  | zero => rfl
  | succ k ih =>
    simp only [limbLt, ih, limbEq_eq_decide, lt_iff_upper_lower k x y, Bool.decide_and,
      Bool.decide_or]

theorem limbGt_eq_limbLt (k x y : Nat) : limbGt k x y = limbLt k y x := by
  induction k generalizing x y with
  | zero => rfl
  | succ k ih => simp only [limbGt, limbLt, ih, limbEq_eq_decide, eq_comm]

/-- Settles O46: at every level the limb forms are the order of the numbers. -/
theorem limbComparisonIsTheUnsignedOrder : Obligations.LimbComparisonIsTheUnsignedOrder :=
  fun _ x y _ _ => ⟨limbEq_eq_decide _ x y, limbLt_eq_decide _ x y,
    (limbGt_eq_limbLt _ x y).trans (limbLt_eq_decide _ y x)⟩

/-! ### A wide value and a scalar (40_compare.md R66) -/

theorem two_pow_half_le_of_hiLimb_ne_zero {w : Width} {v : Nat} (h : hiLimb w v ≠ 0) :
    2 ^ w.half ≤ v :=
  (Nat.div_ne_zero_iff.1 h).2

/-- A scalar of H bits on PB is the whole of opB. -/
theorem operandB_pb_of_ofScalar {w : Width} {x : BitVec w.half} {s : State}
    (h : s.ports.pb = ofScalar x) : operandB w .pb s = x.toNat := by
  have hbits : x.toNat < 2 ^ w.bits :=
    x.isLt.trans_le (Nat.pow_le_pow_right Nat.two_pos (Nat.div_le_self _ _))
  have hport : (ofScalar x).toNat = x.toNat := by
    rw [ofScalar, BitVec.toNat_setWidth, Nat.mod_eq_of_lt (hbits.trans_le w.two_pow_bits_le)]
  rw [operandB, sourceB, h, hport, Nat.mod_eq_of_lt hbits]

/-- Settles O55: opB < 2^H ≤ opA, and CMP tells the order. -/
theorem wideValueExceedsEveryScalar : Obligations.WideValueExceedsEveryScalar := by
  intro w a x s hpb hhi
  have hlt : operandB w .pb s < operandA w a s :=
    calc operandB w .pb s
      _ = x.toNat := operandB_pb_of_ofScalar hpb
      _ < 2 ^ w.half := x.isLt
      _ ≤ operandA w a s := two_pow_half_le_of_hiLimb_ne_zero hhi
  obtain ⟨t, hexec, heqFlag, hltFlag, hgtFlag, -⟩ := cmpSetsExactlyTheFlagOfTheOrder w a .pb s
  exact ⟨t, hexec, hgtFlag.2 hlt, Bool.eq_false_iff.2 (mt hltFlag.1 hlt.not_gt),
    Bool.eq_false_iff.2 (mt heqFlag.1 hlt.ne')⟩

end Sys2Proof.Machine
end

section
/-! SUPPORT. AND, OR, XOR and NOT: what each does to each bit (41_bitwise.md R67 to R70), the limb forms,
and a wide value combined with a native scalar (R71). AND, OR and XOR are each `Nat.bitwise g` for a
Boolean `g` with `g false false = false`, so each fact about them is proved once, for every such `g`. -/

namespace Sys2Proof.Machine

/-! ### Bit by bit (41_bitwise.md R67 to R70) -/

theorem binaryToQ_bitwise_completes (g : Bool → Bool → Bool) (w : Width) (a : SrcA) (b : SrcB)
    (s : State) :
    ∃ t, binaryToQ w a b (Nat.bitwise g) s = .next t ∧
      CompletesWithQ s (Nat.bitwise g (operandA w a s) (operandB w b s)) t :=
  binaryToQ_completes w a b _ s (Nat.bitwise_lt_two_pow (operandA_lt w a s) (operandB_lt w b s))

theorem binaryToQ_bitwise_combines_bits {g : Bool → Bool → Bool} (hg : g false false = false)
    (w : Width) (a : SrcA) (b : SrcB) (s : State) :
    ∃ t v, binaryToQ w a b (Nat.bitwise g) s = .next t ∧ CompletesWithQ s v t ∧ v < 2 ^ w.bits ∧
      ∀ k, k < w.bits →
        v.testBit k = g ((operandA w a s).testBit k) ((operandB w b s).testBit k) := by
  obtain ⟨t, hrun, hcompletes⟩ := binaryToQ_bitwise_completes g w a b s
  exact ⟨t, _, hrun, hcompletes, Nat.bitwise_lt_two_pow (operandA_lt w a s) (operandB_lt w b s),
    fun k _ => Nat.testBit_bitwise hg _ _ k⟩

/-- Settles O19: each of the three is a bitwise combination of the operands. -/
theorem bitwiseCommandsCombineBits : Obligations.BitwiseCommandsCombineBits := fun w a b s =>
  ⟨binaryToQ_bitwise_combines_bits (g := and) rfl w a b s,
    binaryToQ_bitwise_combines_bits (g := or) rfl w a b s,
    binaryToQ_bitwise_combines_bits (g := xor) rfl w a b s⟩

theorem complement_add_self {w : Width} {x : Nat} (hx : x < 2 ^ w.bits) :
    complement w x + x = 2 ^ w.bits - 1 :=
  Nat.sub_add_cancel (Nat.le_sub_one_of_lt hx)

theorem testBit_complement {w : Width} {x k : Nat} (hx : x < 2 ^ w.bits) (hk : k < w.bits) :
    (complement w x).testBit k = !x.testBit k := by
  rw [complement, Nat.sub_sub, Nat.add_comm 1 x, Nat.testBit_two_pow_sub_succ hx, decide_eq_true hk,
    Bool.true_and]

/-- Settles O20: the complement makes the operand up to W ones. -/
theorem notInvertsTheBitsOfTheWidth : Obligations.NotInvertsTheBitsOfTheWidth := by
  intro w a b s
  have hA := operandA_lt w a s
  obtain ⟨t, hrun, hcompletes⟩ := unaryToQ_completes w a (complement w) s (complement_lt w _)
  exact ⟨t, _, hrun, hcompletes, complement_add_self hA, fun k hk => testBit_complement hA hk⟩

/-! ### Limb by limb (41_bitwise.md, opening paragraph) -/

theorem limbPair_upper_lower (k v : Nat) : limbPair k (upper k v) (lower k v) = v :=
  Nat.div_add_mod' v (2 ^ limbBits k)

/-- No bound on the values is needed: the uppermost limb is combined whole. -/
theorem limbwise_bitwise {g : Bool → Bool → Bool} (hg : g false false = false) (k x y : Nat) :
    limbwise (Nat.bitwise g) k x y = Nat.bitwise g x y := by
  induction k generalizing x y with
  | zero => rfl
  | succ k ih =>
    have hupper : Nat.bitwise g (upper k x) (upper k y) = upper k (Nat.bitwise g x y) :=
      (Nat.bitwise_div_two_pow hg).symm
    have hlower : Nat.bitwise g (lower k x) (lower k y) = lower k (Nat.bitwise g x y) :=
      (Nat.bitwise_mod_two_pow hg).symm
    rw [limbwise, ih, ih, hupper, hlower, limbPair_upper_lower]

theorem two_pow_limbBits_succ (k : Nat) :
    2 ^ limbBits (k + 1) = 2 ^ limbBits k * 2 ^ limbBits k := by
  rw [← Nat.pow_add]
  congr 1
  unfold limbBits
  omega

theorem limbBits_limbLevel (w : Width) : limbBits (limbLevel w) = w.bits := by
  cases w <;> rfl

theorem lower_lt (k v : Nat) : lower k v < 2 ^ limbBits k := Nat.mod_lt _ (Nat.two_pow_pos _)

theorem upper_lt {k v : Nat} (h : v < 2 ^ limbBits (k + 1)) : upper k v < 2 ^ limbBits k :=
  Nat.div_lt_of_lt_mul (two_pow_limbBits_succ k ▸ h)

/-- A value and its limbwise inverse make up all ones, with no borrow between the limbs. -/
theorem limbNot_add_self {k x : Nat} (hx : x < 2 ^ limbBits k) :
    limbNot k x + x + 1 = 2 ^ limbBits k := by
  induction k generalizing x with
  | zero =>
    unfold limbNot
    omega
  | succ k ih =>
    have hlower := ih (lower_lt k x)
    calc limbNot (k + 1) x + x + 1
      _ = limbPair k (limbNot k (upper k x)) (limbNot k (lower k x)) +
            limbPair k (upper k x) (lower k x) + 1 := by rw [limbNot, limbPair_upper_lower]
      _ = (limbNot k (upper k x) + upper k x) * 2 ^ limbBits k +
            (limbNot k (lower k x) + lower k x + 1) := by
        unfold limbPair
        ring
      _ = (limbNot k (upper k x) + upper k x + 1) * 2 ^ limbBits k := by rw [hlower]; ring
      _ = 2 ^ limbBits (k + 1) := by rw [ih (upper_lt hx), two_pow_limbBits_succ]

theorem limbNot_eq_complement {w : Width} {x : Nat} (hx : x < 2 ^ w.bits) :
    limbNot (limbLevel w) x = complement w x := by
  have hsum := limbNot_add_self (limbBits_limbLevel w ▸ hx)
  rw [limbBits_limbLevel] at hsum
  unfold complement
  omega

/-- Settles O47: a bitwise operator commutes with taking limbs, and inverting borrows nothing. -/
theorem limbBitwiseIsWholeWidthBitwise : Obligations.LimbBitwiseIsWholeWidthBitwise :=
  fun _ x y hx _ => ⟨limbwise_bitwise (g := and) rfl _ x y, limbwise_bitwise (g := or) rfl _ x y,
    limbwise_bitwise (g := xor) rfl _ x y, limbNot_eq_complement hx⟩

/-! ### A wide value and a scalar (41_bitwise.md R71) -/

theorem hiLimb_bitwise {g : Bool → Bool → Bool} (hg : g false false = false) (w : Width) (x y : Nat) :
    hiLimb w (Nat.bitwise g x y) = Nat.bitwise g (hiLimb w x) (hiLimb w y) :=
  Nat.bitwise_div_two_pow hg

theorem hiLimb_operandB_pb_of_ofScalar {w : Width} {x : BitVec w.half} {s : State}
    (h : s.ports.pb = ofScalar x) : hiLimb w (operandB w .pb s) = 0 := by
  rw [operandB_pb_of_ofScalar h, hiLimb, Nat.div_eq_of_lt x.isLt]

theorem binaryToQ_bitwise_scalar_hiLimb {g : Bool → Bool → Bool} (hg : g false false = false)
    {w : Width} (a : SrcA) {x : BitVec w.half} {s : State} (h : s.ports.pb = ofScalar x) :
    ∃ t, binaryToQ w a .pb (Nat.bitwise g) s = .next t ∧
      hiLimb w t.q.toNat = Nat.bitwise g (hiLimb w (operandA w a s)) 0 := by
  obtain ⟨t, hrun, hcompletes⟩ := binaryToQ_bitwise_completes g w a .pb s
  refine ⟨t, hrun, ?_⟩
  rw [hcompletes.q_value, hiLimb_bitwise hg, hiLimb_operandB_pb_of_ofScalar h]

/-- Settles O56: the scalar's high limb is 0, which AND takes and OR and XOR pass by. -/
theorem scalarBitwiseClearsOrKeepsHi : Obligations.ScalarBitwiseClearsOrKeepsHi := by
  intro w a x s hpb
  obtain ⟨tand, hand, hhiAnd⟩ := binaryToQ_bitwise_scalar_hiLimb (g := and) rfl a hpb
  obtain ⟨tor, hor, hhiOr⟩ := binaryToQ_bitwise_scalar_hiLimb (g := or) rfl a hpb
  obtain ⟨txor, hxor, hhiXor⟩ := binaryToQ_bitwise_scalar_hiLimb (g := xor) rfl a hpb
  exact ⟨⟨tand, hand, hhiAnd.trans (Nat.and_zero _)⟩, ⟨tor, hor, hhiOr.trans (Nat.or_zero _)⟩,
    ⟨txor, hxor, hhiXor.trans (Nat.xor_zero _)⟩⟩

end Sys2Proof.Machine
end

section
/-! SUPPORT. SHL and SHR: the test of the amount (42_shift.md R72), the shifts by the amount's low limb
(R73, R75), the formulas they equal for every amount (R78), and the limb cases (R74, R76). -/

namespace Sys2Proof.Machine

/-! ### The test of the amount (42_shift.md R72) -/

theorem bits_eq_two_mul_half (w : Width) : w.bits = 2 * w.half := by cases w <;> rfl

theorem two_mul_le_two_pow (n : Nat) : 2 * n ≤ 2 ^ n := Nat.mul_le_pow (by decide) n

/-- The test of an amount by its limbs of `h` bits is the test of the whole amount: one with a high limb
is at least `2 ^ h`, and any other is its low limb. -/
theorem limbs_overflow_iff (h v : Nat) : v / 2 ^ h ≠ 0 ∨ 2 * h ≤ v % 2 ^ h ↔ 2 * h ≤ v := by
  rcases Nat.lt_or_ge v (2 ^ h) with hlt | hge
  · simp [Nat.div_eq_of_lt hlt, Nat.mod_eq_of_lt hlt]
  · have hne : v / 2 ^ h ≠ 0 := (Nat.div_pos hge (Nat.two_pow_pos h)).ne'
    exact ⟨fun _ => (two_mul_le_two_pow h).trans hge, fun _ => .inl hne⟩

/-- An amount that passes the test is its low limb. -/
theorem limbs_of_lt {h v : Nat} (hv : v < 2 * h) : v / 2 ^ h = 0 ∧ v % 2 ^ h = v :=
  have hlt := hv.trans_le (two_mul_le_two_pow h)
  ⟨Nat.div_eq_of_lt hlt, Nat.mod_eq_of_lt hlt⟩

theorem amountOverflows_iff (w : Width) (amount : Nat) :
    amountOverflows w amount = true ↔ hiLimb w amount ≠ 0 ∨ w.bits ≤ loLimb w amount := by
  simp [amountOverflows]

theorem amountOverflows_iff_le (w : Width) (amount : Nat) :
    amountOverflows w amount = true ↔ w.bits ≤ amount := by
  rw [amountOverflows_iff, bits_eq_two_mul_half]
  exact limbs_overflow_iff w.half amount

theorem loLimb_of_lt {w : Width} {amount : Nat} (h : amount < w.bits) : loLimb w amount = amount :=
  (limbs_of_lt (bits_eq_two_mul_half w ▸ h)).2

/-! ### Both shifts by the fields of the amount (42_shift.md R73, R75) -/

theorem fieldValue_hi_eq_hiLimb {w : Width} {v : Nat} (h : v < 2 ^ w.bits) :
    fieldValue (w.bits - 1) w.half v = hiLimb w v := by
  have hlt : v / 2 ^ w.half < 2 ^ w.half :=
    Nat.div_lt_of_lt_mul (by rwa [← Nat.pow_add, ← Nat.two_mul, ← bits_eq_two_mul_half])
  have hwidth : w.bits - 1 - w.half + 1 = w.half := by cases w <;> rfl
  rw [fieldValue, hwidth, Nat.mod_eq_of_lt hlt, hiLimb]

theorem fieldValue_lo_eq_loLimb (w : Width) (v : Nat) : fieldValue (w.half - 1) 0 v = loLimb w v := by
  cases w <;> simp [fieldValue, loLimb]

theorem shiftLeft_of_overflow {w : Width} {v amount : Nat}
    (h : hiLimb w amount ≠ 0 ∨ w.bits ≤ loLimb w amount) : shiftLeft w v amount = 0 :=
  if_pos ((amountOverflows_iff w amount).2 h)

theorem shiftLeft_of_fits {w : Width} {v amount : Nat} (hhi : hiLimb w amount = 0)
    (hlo : loLimb w amount < w.bits) :
    shiftLeft w v amount = v * 2 ^ loLimb w amount % 2 ^ w.bits :=
  if_neg (mt (amountOverflows_iff w amount).1 (by simp [hhi, hlo]))

theorem shiftRight_of_overflow {w : Width} {v amount : Nat}
    (h : hiLimb w amount ≠ 0 ∨ w.bits ≤ loLimb w amount) : shiftRight w v amount = 0 :=
  if_pos ((amountOverflows_iff w amount).2 h)

theorem shiftRight_of_fits {w : Width} {v amount : Nat} (hhi : hiLimb w amount = 0)
    (hlo : loLimb w amount < w.bits) : shiftRight w v amount = v / 2 ^ loLimb w amount :=
  if_neg (mt (amountOverflows_iff w amount).1 (by simp [hhi, hlo]))

theorem shl_completes (w : Width) (a : SrcA) (b : SrcB) (s : State) :
    ∃ t, exec (.shl w a b) s = .next t ∧
      CompletesWithQ s (shiftLeft w (operandA w a s) (operandB w b s)) t :=
  binaryToQ_completes w a b (shiftLeft w) s (shiftLeft_lt w _ _)

theorem shr_completes (w : Width) (a : SrcA) (b : SrcB) (s : State) :
    ∃ t, exec (.shr w a b) s = .next t ∧
      CompletesWithQ s (shiftRight w (operandA w a s) (operandB w b s)) t :=
  binaryToQ_completes w a b (shiftRight w) s (shiftRight_lt w (operandA_lt w a s) _)

/-- Settles O21: the two fields of opB are its limbs, which the test of SHL reads. -/
theorem shlShiftsOrGivesZero : Obligations.ShlShiftsOrGivesZero := by
  intro w a b s amountHi amountLo
  have hhi : amountHi = hiLimb w (operandB w b s) := fieldValue_hi_eq_hiLimb (operandB_lt w b s)
  have hlo : amountLo = loLimb w (operandB w b s) := fieldValue_lo_eq_loLimb w _
  obtain ⟨t, hrun, hcompletes⟩ := shl_completes w a b s
  rw [hhi, hlo]
  exact ⟨t, _, hrun, hcompletes, shiftLeft_of_overflow, shiftLeft_of_fits⟩

/-- Settles O22: the two fields of opB are its limbs, which the test of SHR reads. -/
theorem shrShiftsOrGivesZero : Obligations.ShrShiftsOrGivesZero := by
  intro w a b s amountHi amountLo
  have hhi : amountHi = hiLimb w (operandB w b s) := fieldValue_hi_eq_hiLimb (operandB_lt w b s)
  have hlo : amountLo = loLimb w (operandB w b s) := fieldValue_lo_eq_loLimb w _
  obtain ⟨t, hrun, hcompletes⟩ := shr_completes w a b s
  rw [hhi, hlo]
  exact ⟨t, _, hrun, hcompletes, shiftRight_of_overflow, shiftRight_of_fits⟩

/-! ### The formulas without the test (42_shift.md R78) -/

theorem mul_two_pow_mod_eq_zero {n s : Nat} (v : Nat) (h : n ≤ s) : v * 2 ^ s % 2 ^ n = 0 :=
  Nat.mod_eq_zero_of_dvd ((pow_dvd_pow 2 h).mul_left v)

theorem div_two_pow_eq_zero {n s v : Nat} (hv : v < 2 ^ n) (h : n ≤ s) : v / 2 ^ s = 0 :=
  Nat.div_eq_of_lt (hv.trans_le (Nat.pow_le_pow_right Nat.two_pos h))

theorem shiftLeft_eq_mul_mod (w : Width) (v amount : Nat) :
    shiftLeft w v amount = v * 2 ^ amount % 2 ^ w.bits := by
  rw [shiftLeft]
  split
  · next hover =>
    rw [mul_two_pow_mod_eq_zero v ((amountOverflows_iff_le w amount).1 hover)]
  · next hfits =>
    rw [loLimb_of_lt (Nat.lt_of_not_le (mt (amountOverflows_iff_le w amount).2 hfits))]

theorem shiftRight_eq_div {w : Width} {v : Nat} (hv : v < 2 ^ w.bits) (amount : Nat) :
    shiftRight w v amount = v / 2 ^ amount := by
  rw [shiftRight]
  split
  · next hover =>
    rw [div_two_pow_eq_zero hv ((amountOverflows_iff_le w amount).1 hover)]
  · next hfits =>
    rw [loLimb_of_lt (Nat.lt_of_not_le (mt (amountOverflows_iff_le w amount).2 hfits))]

/-- Settles O23: where the test gives 0, so does the formula. -/
theorem shiftsEqualUnconditionalFormulas : Obligations.ShiftsEqualUnconditionalFormulas := by
  intro w a b s
  rw [← shiftLeft_eq_mul_mod, ← shiftRight_eq_div (operandA_lt w a s)]
  exact ⟨shl_completes w a b s, shr_completes w a b s⟩

/-! ### The limb cases (42_shift.md R74, R76) -/

/-- The shift of an `n`-bit value in the given direction, by the formulas of R78. -/
def shiftWithin (n : Nat) : ShiftDirection → Nat → Nat → Nat
  | .left, v, s => v * 2 ^ s % 2 ^ n
  | .right, v, s => v / 2 ^ s

theorem shiftWithin_zero {n v : Nat} (dir : ShiftDirection) (hv : v < 2 ^ n) :
    shiftWithin n dir v 0 = v := by
  cases dir with
  | left => simp [shiftWithin, Nat.mod_eq_of_lt hv]
  | right => simp [shiftWithin]

theorem shiftWithin_of_le {n v s : Nat} (dir : ShiftDirection) (hv : v < 2 ^ n) (hs : n ≤ s) :
    shiftWithin n dir v s = 0 := by
  cases dir with
  | left => exact mul_two_pow_mod_eq_zero v hs
  | right => exact div_two_pow_eq_zero hv hs

theorem limbBits_succ (k : Nat) : limbBits (k + 1) = 2 * limbBits k := by
  unfold limbBits
  omega

/-- A window of `limbBits k` bits, `m` places up, is the high end of the lower limb with the low end of
the upper limb above it. This is what crosses the limb boundary, in both directions. -/
theorem lower_div_two_pow (k v : Nat) {m : Nat} (hm : m ≤ limbBits k) :
    lower k (v / 2 ^ m) =
      shiftWithin (limbBits k) .left (upper k v) (limbBits k - m) |||
        shiftWithin (limbBits k) .right (lower k v) m := by
  apply Nat.eq_of_testBit_eq
  intro i
  simp only [lower, upper, shiftWithin, Nat.testBit_or, Nat.testBit_mod_two_pow,
    Nat.testBit_div_two_pow, Nat.testBit_mul_two_pow]
  by_cases hbelow : i + m < limbBits k
  · have hi : i < limbBits k := by omega
    have hnot : ¬ limbBits k - m ≤ i := by omega
    simp [hbelow, hi, hnot]
  · have hge : limbBits k - m ≤ i := by omega
    have hplace : i - (limbBits k - m) + limbBits k = i + m := by omega
    simp [hbelow, hge, hplace]

/-- Shifting left by at most a limb: no bit of the lower limb falls out of the value. -/
theorem shiftWithin_left_of_le_limbBits (k v : Nat) {s : Nat} (hs : s ≤ limbBits k) :
    shiftWithin (limbBits (k + 1)) .left v s =
      limbPair k
        (shiftWithin (limbBits k) .left (upper k v) s |||
          shiftWithin (limbBits k) .right (lower k v) (limbBits k - s))
        (shiftWithin (limbBits k) .left (lower k v) s) := by
  have hupper : upper k (v * 2 ^ s % 2 ^ limbBits (k + 1)) = lower k (v / 2 ^ (limbBits k - s)) := by
    rw [upper, two_pow_limbBits_succ, Nat.mod_mul_right_div_self, lower]
    congr 1
    rw [← Nat.mul_div_mul_right v _ (Nat.two_pow_pos s), ← Nat.pow_add, Nat.sub_add_cancel hs]
  have hlower : lower k (v * 2 ^ s % 2 ^ limbBits (k + 1)) = lower k v * 2 ^ s % 2 ^ limbBits k := by
    rw [lower, two_pow_limbBits_succ, Nat.mod_mul_right_mod, lower, Nat.mod_mul_mod]
  have hcross := lower_div_two_pow k v (Nat.sub_le (limbBits k) s)
  rw [Nat.sub_sub_self hs, ← hupper] at hcross
  rw [← hcross, shiftWithin, shiftWithin, ← hlower, limbPair_upper_lower]

/-- Shifting left by a limb or more: the upper limb falls out whole. -/
theorem shiftWithin_left_of_limbBits_le (k v : Nat) {s : Nat} (hs : limbBits k ≤ s) :
    shiftWithin (limbBits (k + 1)) .left v s =
      limbPair k (shiftWithin (limbBits k) .left (lower k v) (s - limbBits k)) 0 := by
  obtain ⟨m, rfl⟩ := Nat.exists_eq_add_of_le hs
  calc v * 2 ^ (limbBits k + m) % 2 ^ limbBits (k + 1)
    _ = v * 2 ^ m * 2 ^ limbBits k % (2 ^ limbBits k * 2 ^ limbBits k) := by
      rw [two_pow_limbBits_succ, Nat.pow_add, Nat.mul_comm (2 ^ limbBits k), Nat.mul_assoc]
    _ = v * 2 ^ m % 2 ^ limbBits k * 2 ^ limbBits k := Nat.mul_mod_mul_right _ _ _
    _ = lower k v * 2 ^ m % 2 ^ limbBits k * 2 ^ limbBits k := by rw [lower, Nat.mod_mul_mod]
    _ = limbPair k (lower k v * 2 ^ (limbBits k + m - limbBits k) % 2 ^ limbBits k) 0 := by
      rw [limbPair, Nat.add_sub_cancel_left, Nat.add_zero]

/-- Shifting right by at most a limb: no bit of the upper limb falls out of the value. -/
theorem shiftWithin_right_of_le_limbBits (k n v : Nat) {s : Nat} (hs : s ≤ limbBits k) :
    shiftWithin n .right v s =
      limbPair k (shiftWithin (limbBits k) .right (upper k v) s)
        (shiftWithin (limbBits k) .right (lower k v) s |||
          shiftWithin (limbBits k) .left (upper k v) (limbBits k - s)) := by
  have hupper : shiftWithin (limbBits k) .right (upper k v) s = upper k (v / 2 ^ s) :=
    Nat.div_right_comm v _ _
  rw [Nat.or_comm, ← lower_div_two_pow k v hs, hupper, limbPair_upper_lower, shiftWithin]

/-- Shifting right by a limb or more: the lower limb falls out whole. -/
theorem shiftWithin_right_of_limbBits_le (k n v : Nat) {s : Nat} (hs : limbBits k ≤ s) :
    shiftWithin n .right v s =
      limbPair k 0 (shiftWithin (limbBits k) .right (upper k v) (s - limbBits k)) := by
  obtain ⟨m, rfl⟩ := Nat.exists_eq_add_of_le hs
  simp only [shiftWithin, limbPair, upper, Nat.add_sub_cancel_left, Nat.zero_mul, Nat.zero_add]
  rw [Nat.pow_add, Nat.div_div_eq_div_mul]

/-- The limb cases, at each level, are the shift of the whole value, and the shifts of the limbs that
they run are those of the level below. -/
theorem limbShift_eq_shiftWithin {k v : Nat} (dir : ShiftDirection) (hv : v < 2 ^ limbBits k)
    (amount : Nat) : limbShift k dir v amount = shiftWithin (limbBits k) dir v amount := by
  induction k generalizing dir v amount with
  | zero => cases dir <;> rfl
  | succ k ih =>
    have hup (dir s) := ih dir (upper_lt hv) s
    have hlo (dir s) := ih dir (lower_lt k v) s
    rcases Nat.lt_or_ge amount (2 * limbBits k) with hfits | hover
    · obtain ⟨hhi, hs⟩ : upper k amount = 0 ∧ lower k amount = amount := limbs_of_lt hfits
      cases dir <;> simp only [limbShift, hhi, hs, hup, hlo, ne_eq, not_true_eq_false, false_or,
        hfits.not_ge, if_false]
      case left =>
        split_ifs with hzero hlt heq
        · rw [hzero, shiftWithin_zero .left hv]
        · rw [shiftWithin_left_of_le_limbBits k v hlt.le]
        · rw [shiftWithin_left_of_limbBits_le k v heq.ge, heq, Nat.sub_self,
            shiftWithin_zero .left (lower_lt k v)]
        · rw [shiftWithin_left_of_limbBits_le k v (Nat.le_of_not_lt hlt)]
      case right =>
        split_ifs with hzero hlt heq
        · rw [hzero, shiftWithin_zero .right hv]
        · rw [shiftWithin_right_of_le_limbBits k _ v hlt.le]
        · rw [shiftWithin_right_of_limbBits_le k _ v heq.ge, heq, Nat.sub_self,
            shiftWithin_zero .right (upper_lt hv)]
        · rw [shiftWithin_right_of_limbBits_le k _ v (Nat.le_of_not_lt hlt)]
    · rw [shiftWithin_of_le dir hv (limbBits_succ k ▸ hover)]
      exact if_pos ((limbs_overflow_iff (limbBits k) amount).2 hover)

/-- Settles O48: the limb cases and the commands' tests both come to the formulas of R78. -/
theorem limbShiftsAreTheShifts : Obligations.LimbShiftsAreTheShifts := by
  intro w x amount hx _
  have hlimb := fun dir => limbShift_eq_shiftWithin dir (limbBits_limbLevel w ▸ hx) amount
  rw [limbBits_limbLevel] at hlimb
  exact ⟨(hlimb .left).trans (shiftLeft_eq_mul_mod w x amount).symm,
    (hlimb .right).trans (shiftRight_eq_div hx amount).symm⟩

end Sys2Proof.Machine
end

section
/-! SUPPORT. ADD, SUB and NEG: the sum, the difference and the negation modulo 2^W (43_add_sub.md R79,
R81, R83, R84), the carry a host finds by comparing (R85), and the limb forms (R80, R82, R83). The
difference is the only value below 2^W that, added to the subtrahend, is congruent to the minuend. -/

namespace Sys2Proof.Machine

/-! ### The sum (43_add_sub.md R79) -/

/-- Settles O24: the sum modulo 2^W is a W-bit value. -/
theorem addWrapsModuloTheWidth : Obligations.AddWrapsModuloTheWidth := fun w a b s =>
  binaryToQ_completes w a b (sumMod w) s (sumMod_lt w _ _)

/-! ### The difference (43_add_sub.md R81) -/

theorem differenceMod_add_modEq (w : Width) (x y : Nat) :
    differenceMod w x y + y ≡ x [MOD 2 ^ w.bits] := by
  have hcast : (differenceMod w x y : Int) = ((x : Int) - y) % 2 ^ w.bits :=
    Int.toNat_of_nonneg (Int.emod_nonneg _ (by positivity))
  rw [← Int.natCast_modEq_iff]
  push_cast
  rw [hcast]
  simpa using (Int.mod_modEq ((x : Int) - y) (2 ^ w.bits)).add_right y

theorem eq_differenceMod {w : Width} {x y v : Nat} (hv : v < 2 ^ w.bits)
    (h : v + y ≡ x [MOD 2 ^ w.bits]) : v = differenceMod w x y :=
  ((h.trans (differenceMod_add_modEq w x y).symm).add_right_cancel' y).eq_of_lt_of_lt hv
    (differenceMod_lt w x y)

theorem differenceMod_of_lt {w : Width} {x y : Nat} (hy : y < 2 ^ w.bits) (h : x < y) :
    differenceMod w x y = x + 2 ^ w.bits - y := by
  refine (eq_differenceMod (by omega) ?_).symm
  rw [Nat.sub_add_cancel (by omega)]
  exact Nat.add_modEq_right

theorem differenceMod_of_le {w : Width} {x y : Nat} (hx : x < 2 ^ w.bits) (h : y ≤ x) :
    differenceMod w x y = x - y := by
  refine (eq_differenceMod (by omega) ?_).symm
  rw [Nat.sub_add_cancel h]

/-- Settles O25: the two cases of the difference, by the order of the operands. -/
theorem subWrapsModuloTheWidth : Obligations.SubWrapsModuloTheWidth := by
  intro w a b s
  obtain ⟨t, hrun, hcompletes⟩ :=
    binaryToQ_completes w a b (differenceMod w) s (differenceMod_lt w _ _)
  refine ⟨t, hrun, ?_⟩
  split
  · next hlt => rwa [← differenceMod_of_lt (operandB_lt w b s) hlt]
  · next hge => rwa [← differenceMod_of_le (operandA_lt w a s) (Nat.le_of_not_lt hge)]

/-! ### The negation (43_add_sub.md R83) -/

theorem negateMod_eq_sub_mod {w : Width} {x : Nat} (hx : x < 2 ^ w.bits) :
    negateMod w x = (2 ^ w.bits - x) % 2 ^ w.bits := by
  have hcomplement := complement_add_self hx
  rw [negateMod, show complement w x + 1 = 2 ^ w.bits - x by omega]

/-- Settles O26: the complement and one make 2^W less the operand. -/
theorem negIsTwosComplement : Obligations.NegIsTwosComplement := by
  intro w a b s
  rw [← negateMod_eq_sub_mod (operandA_lt w a s)]
  exact unaryToQ_completes w a (negateMod w) s (negateMod_lt w _)

/-! ### The laws (43_add_sub.md R84) -/

theorem sumMod_comm (w : Width) (x y : Nat) : sumMod w x y = sumMod w y x := by
  rw [sumMod, sumMod, Nat.add_comm]

theorem sumMod_assoc (w : Width) (x y z : Nat) :
    sumMod w (sumMod w x y) z = sumMod w x (sumMod w y z) := by
  simp only [sumMod, Nat.mod_add_mod, Nat.add_mod_mod, Nat.add_assoc]

theorem sumMod_zero {w : Width} {x : Nat} (hx : x < 2 ^ w.bits) : sumMod w x 0 = x :=
  Nat.mod_eq_of_lt hx

theorem sumMod_negateMod_self {w : Width} {x : Nat} (hx : x < 2 ^ w.bits) :
    sumMod w x (negateMod w x) = 0 := by
  rw [sumMod, negateMod_eq_sub_mod hx, Nat.add_mod_mod, Nat.add_sub_of_le hx.le, Nat.mod_self]

/-- The sum with the negation has the property that only the difference has. -/
theorem differenceMod_eq_sumMod_negateMod {w : Width} (x : Nat) {y : Nat} (hy : y < 2 ^ w.bits) :
    differenceMod w x y = sumMod w x (negateMod w y) := by
  refine (eq_differenceMod (sumMod_lt w _ _) ?_).symm
  have hnegate : y + negateMod w y ≡ 0 [MOD 2 ^ w.bits] := sumMod_negateMod_self hy
  calc sumMod w x (negateMod w y) + y
    _ ≡ x + negateMod w y + y [MOD 2 ^ w.bits] := (Nat.mod_modEq _ _).add_right y
    _ = x + (y + negateMod w y) := by ring
    _ ≡ x + 0 [MOD 2 ^ w.bits] := hnegate.add_left x

/-- Settles O27, law by law. -/
theorem addSubNegLaws : Obligations.AddSubNegLaws := fun w x y z hx hy _ =>
  ⟨sumMod_comm w x y, sumMod_assoc w x y z, sumMod_zero hx, sumMod_negateMod_self hx,
    differenceMod_eq_sumMod_negateMod x hy⟩

/-! ### The carry (43_add_sub.md R80, R85) -/

/-- A sum wraps exactly when it comes out below an addend. -/
theorem add_mod_lt_left_iff {n x y : Nat} (hx : x < n) (hy : y < n) :
    (x + y) % n < x ↔ n ≤ x + y := by
  rcases Nat.lt_or_ge (x + y) n with hlt | hge
  · rw [Nat.mod_eq_of_lt hlt]
    omega
  · rw [Nat.mod_eq_sub_mod hge, Nat.mod_eq_of_lt (by omega)]
    omega

theorem CompletesWithQ.operandA_pa {s t : State} {v : Nat} (h : CompletesWithQ s v t) (w : Width) :
    operandA w .pa t = operandA w .pa s := by
  rw [operandA, operandA, sourceA, sourceA, h.surroundings.1]

theorem CompletesWithQ.operandB_q {s t : State} {v : Nat} (h : CompletesWithQ s v t) {w : Width}
    (hv : v < 2 ^ w.bits) : operandB w .q t = v := by
  rw [operandB, sourceB, readQ_of_written t h.wq_set, h.q_value, Nat.mod_eq_of_lt hv]

/-- Settles O28: CMP A, Q compares the addend PA still holds with the sum in Q. -/
theorem hostFindsCarryByComparing : Obligations.HostFindsCarryByComparing := by
  intro w b s
  obtain ⟨t, hadd, hcompletes⟩ := addWrapsModuloTheWidth w .pa b s
  obtain ⟨u, hcmp, -, -, hgt, -⟩ := cmpSetsExactlyTheFlagOfTheOrder w .pa .q t
  refine ⟨t, u, hadd, hcmp, hgt.trans ?_⟩
  rw [hcompletes.operandA_pa, hcompletes.operandB_q (sumMod_lt w _ _)]
  exact add_mod_lt_left_iff (operandA_lt w .pa s) (operandB_lt w b s)

/-! ### The limb forms (43_add_sub.md R80, R82, R83) -/

theorem upper_add (k x y : Nat) :
    upper k (x + y) =
      upper k x + upper k y + if 2 ^ limbBits k ≤ lower k x + lower k y then 1 else 0 :=
  Nat.add_div (Nat.two_pow_pos _)

theorem lower_add (k x y : Nat) :
    lower k (x + y) = (lower k x + lower k y) % 2 ^ limbBits k :=
  Nat.add_mod _ _ _

theorem mod_two_pow_limbBits_succ (k v : Nat) :
    v % 2 ^ limbBits (k + 1) = limbPair k (upper k v % 2 ^ limbBits k) (lower k v) := by
  rw [two_pow_limbBits_succ, Nat.mod_mul, limbPair, Nat.add_comm, Nat.mul_comm]
  rfl

/-- No bound on the values is needed: what the uppermost limb carries out is dropped. -/
theorem limbAdd_eq_mod (k x y : Nat) : limbAdd k x y = (x + y) % 2 ^ limbBits k := by
  induction k generalizing x y with
  | zero => rfl
  | succ k ih =>
    have hcarry := add_mod_lt_left_iff (lower_lt k x) (lower_lt k y)
    simp only [limbAdd, ih, limbLt_eq_decide, decide_eq_true_eq, hcarry, Nat.mod_add_mod]
    rw [mod_two_pow_limbBits_succ, upper_add, lower_add]

theorem modEq_of_upper_lower {k x y : Nat} (hupper : upper k x ≡ upper k y [MOD 2 ^ limbBits k])
    (hlower : lower k x = lower k y) : x ≡ y [MOD 2 ^ limbBits (k + 1)] := by
  unfold Nat.ModEq at *
  rw [mod_two_pow_limbBits_succ, mod_two_pow_limbBits_succ, hupper, hlower]

theorem limbPair_lt {k hi lo : Nat} (hhi : hi < 2 ^ limbBits k) (hlo : lo < 2 ^ limbBits k) :
    limbPair k hi lo < 2 ^ limbBits (k + 1) :=
  calc hi * 2 ^ limbBits k + lo
    _ < (hi + 1) * 2 ^ limbBits k := by
      rw [Nat.succ_mul]
      exact Nat.add_lt_add_left hlo _
    _ ≤ 2 ^ limbBits k * 2 ^ limbBits k := Nat.mul_le_mul_right _ hhi
    _ = 2 ^ limbBits (k + 1) := (two_pow_limbBits_succ k).symm

theorem upper_limbPair {k lo : Nat} (hi : Nat) (hlo : lo < 2 ^ limbBits k) :
    upper k (limbPair k hi lo) = hi := by
  rw [upper, limbPair, Nat.mul_comm, Nat.mul_add_div (Nat.two_pow_pos _), Nat.div_eq_of_lt hlo,
    Nat.add_zero]

theorem lower_limbPair {k lo : Nat} (hi : Nat) (hlo : lo < 2 ^ limbBits k) :
    lower k (limbPair k hi lo) = lo := by
  rw [lower, limbPair, Nat.mul_add_mod', Nat.mod_eq_of_lt hlo]

theorem limbSub_lt (k x y : Nat) : limbSub k x y < 2 ^ limbBits k := by
  induction k generalizing x y with
  | zero => exact Nat.mod_lt _ (Nat.two_pow_pos _)
  | succ k ih => exact limbPair_lt (ih _ _) (ih _ _)

/-- The borrow the comparison of limbs finds is the carry of adding the subtrahend back. -/
theorem limbPair_add_modEq {k hi lo x y : Nat} (hlt : lo < 2 ^ limbBits k)
    (hlo : lo + lower k y ≡ lower k x [MOD 2 ^ limbBits k])
    (hhi : hi + (if lower k x < lo then 1 else 0) + upper k y ≡ upper k x [MOD 2 ^ limbBits k]) :
    limbPair k hi lo + y ≡ x [MOD 2 ^ limbBits (k + 1)] := by
  have hlower : (lo + lower k y) % 2 ^ limbBits k = lower k x :=
    hlo.trans (Nat.mod_eq_of_lt (lower_lt k x))
  have hcarry := add_mod_lt_left_iff hlt (lower_lt k y)
  rw [hlower] at hcarry
  apply modEq_of_upper_lower
  · rw [upper_add, upper_limbPair hi hlt, lower_limbPair hi hlt, Nat.add_right_comm]
    simpa only [hcarry] using hhi
  · rw [lower_add, lower_limbPair hi hlt, hlower]

/-- A borrow is a value of its limb. -/
theorem ite_one_zero_lt_two_pow_limbBits (k : Nat) (p : Prop) [Decidable p] :
    (if p then 1 else 0) < 2 ^ limbBits k := by
  have hone : 1 < 2 ^ limbBits k := Nat.one_lt_two_pow (by simp [limbBits])
  split <;> omega

theorem limbSub_add_modEq {k : Nat} (x : Nat) {y : Nat} (hy : y < 2 ^ limbBits k) :
    limbSub k x y + y ≡ x [MOD 2 ^ limbBits k] := by
  induction k generalizing x y with
  | zero =>
    calc limbSub 0 x y + y
      _ ≡ x + 2 ^ limbBits 0 - y + y [MOD 2 ^ limbBits 0] := (Nat.mod_modEq _ _).add_right y
      _ = x + 2 ^ limbBits 0 := Nat.sub_add_cancel (hy.le.trans (Nat.le_add_left _ _))
      _ ≡ x [MOD 2 ^ limbBits 0] := Nat.add_modEq_right
  | succ k ih =>
    have hupper := ih (upper k x) (upper_lt hy)
    refine limbPair_add_modEq (limbSub_lt k _ _) (ih _ (lower_lt k y)) ?_
    simp only [limbGt_eq_limbLt, limbLt_eq_decide, decide_eq_true_eq]
    exact ((ih _ (ite_one_zero_lt_two_pow_limbBits k _)).add_right _).trans hupper

theorem limbSub_eq_differenceMod {w : Width} (x : Nat) {y : Nat} (hy : y < 2 ^ w.bits) :
    limbSub (limbLevel w) x y = differenceMod w x y := by
  have hlt := limbSub_lt (limbLevel w) x y
  have hadd := limbSub_add_modEq x (limbBits_limbLevel w ▸ hy)
  rw [limbBits_limbLevel] at hlt hadd
  exact eq_differenceMod hlt hadd

theorem limbAdd_eq_sumMod (w : Width) (x y : Nat) : limbAdd (limbLevel w) x y = sumMod w x y := by
  rw [limbAdd_eq_mod, limbBits_limbLevel, sumMod]

/-- Settles O49: the carry is the wrap of the lower sum, and the borrow is the carry of adding back. -/
theorem limbAddSubtractAreModular : Obligations.LimbAddSubtractAreModular := by
  refine fun w x y hx hy => ⟨limbAdd_eq_sumMod w x y, limbSub_eq_differenceMod x hy, ?_⟩
  rw [limbAdd_eq_sumMod, limbNot_eq_complement hx, sumMod, negateMod]

end Sys2Proof.Machine
end

section
/-! SUPPORT. MUL: the low half of the product (44_multiply.md R86), its laws (R90), and the quarter-limb
schoolbook multiply (R87, R88). A partial product lies in two neighbouring columns, and what lies at or
above column 4 is a multiple of 2^(4M), so dropping it keeps the product modulo 2^(4M). -/

namespace Sys2Proof.Machine

open Finset

/-! ### The product (44_multiply.md R86, R90) -/

/-- Settles O29: the low half of the product is a W-bit value. -/
theorem mulKeepsTheLowHalf : Obligations.MulKeepsTheLowHalf := fun w a b s =>
  binaryToQ_completes w a b (productMod w) s (productMod_lt w _ _)

theorem productMod_comm (w : Width) (x y : Nat) : productMod w x y = productMod w y x := by
  rw [productMod, productMod, Nat.mul_comm]

theorem productMod_one {w : Width} {x : Nat} (hx : x < 2 ^ w.bits) : productMod w x 1 = x := by
  rw [productMod, Nat.mul_one, Nat.mod_eq_of_lt hx]

theorem productMod_zero (w : Width) (x : Nat) : productMod w x 0 = 0 := Nat.zero_mod _

theorem productMod_two_pow (w : Width) (x k : Nat) : productMod w x (2 ^ k) = shiftLeft w x k :=
  (shiftLeft_eq_mul_mod w x k).symm

/-- Settles O30, law by law; SHL by `k` multiplies by `2 ^ k` whatever `k` is. -/
theorem multiplyLawsAndShiftByPowerOfTwo : Obligations.MultiplyLawsAndShiftByPowerOfTwo :=
  fun w x y k hx _ _ =>
    ⟨productMod_comm w x y, productMod_one hx, productMod_zero w x, productMod_two_pow w x k⟩

/-! ### The schoolbook multiply (44_multiply.md R87, R88) -/

/-- The low `n` quarter-limbs at their places make the value's low `n * m` bits. -/
theorem sum_quarterLimb (m n v : Nat) :
    ∑ i ∈ range n, quarterLimb m i v * 2 ^ (i * m) = v % 2 ^ (n * m) := by
  induction n with
  | zero => simp [Nat.mod_one]
  | succ n ih =>
    rw [sum_range_succ, ih, Nat.succ_mul, Nat.pow_add, Nat.mod_mul, quarterLimb,
      Nat.mul_comm (2 ^ (n * m))]

/-- Carrying from column to column adds the columns at their places; the carry out of the
last is dropped. -/
theorem foldColumns_map_range (m n place carry : Nat) (f : Nat → Nat) :
    foldColumns m ((List.range n).map f) place carry =
      (carry + ∑ k ∈ range n, f k * 2 ^ (k * m)) % 2 ^ (n * m) * 2 ^ place := by
  induction n generalizing place carry f with
  | zero => simp [foldColumns, Nat.mod_one]
  | succ n ih =>
    have hshift : ∑ k ∈ range n, f (k + 1) * 2 ^ ((k + 1) * m) =
        2 ^ m * ∑ k ∈ range n, f (k + 1) * 2 ^ (k * m) := by
      rw [mul_sum]
      exact sum_congr rfl fun k _ => by ring
    have hsum : carry + ∑ k ∈ range (n + 1), f k * 2 ^ (k * m) =
        f 0 + carry + 2 ^ m * ∑ k ∈ range n, f (k + 1) * 2 ^ (k * m) := by
      rw [sum_range_succ', hshift]
      ring
    rw [hsum, List.range_succ_eq_map, List.map_cons, List.map_map, foldColumns, ih,
      Nat.add_comm place, Nat.succ_mul, Nat.add_comm (n * m), Nat.pow_add, Nat.pow_add, Nat.mod_mul,
      Nat.add_mul_mod_self_left, Nat.add_mul_div_left _ _ (Nat.two_pow_pos m)]
    simp only [Function.comp_apply]
    ring

/-- What a partial product `p`, whose low half belongs to column `c`, adds to column `k`: the low half
there and the high half one column up (44_multiply.md R88). -/
def columnPart (m p c k : Nat) : Nat :=
  (if c = k then p % 2 ^ m else 0) + (if c + 1 = k then p / 2 ^ m else 0)

theorem productColumn_eq_sum (times : Nat → Nat → Nat) (m a b k : Nat) :
    productColumn times m a b k = ∑ i ∈ range 4, ∑ j ∈ range 4,
      columnPart m (times (quarterLimb m i a) (quarterLimb m j b)) (i + j) k := rfl

/-- A half whose column is among the first `n` counts in full; one further up is 0 modulo
`2 ^ (n * m)`. -/
theorem sum_ite_eq_modEq (m n c v : Nat) :
    ∑ k ∈ range n, (if c = k then v else 0) * 2 ^ (k * m) ≡ v * 2 ^ (c * m) [MOD 2 ^ (n * m)] := by
  simp only [ite_mul, zero_mul, sum_ite_eq, mem_range]
  split
  · rfl
  · next hc =>
    have hdvd : 2 ^ (n * m) ∣ v * 2 ^ (c * m) :=
      (pow_dvd_pow 2 (Nat.mul_le_mul_right m (Nat.le_of_not_lt hc))).mul_left v
    exact ((Nat.modEq_zero_iff_dvd).2 hdvd).symm

theorem sum_columnPart_modEq (m n p c : Nat) :
    ∑ k ∈ range n, columnPart m p c k * 2 ^ (k * m) ≡ p * 2 ^ (c * m) [MOD 2 ^ (n * m)] := by
  calc ∑ k ∈ range n, columnPart m p c k * 2 ^ (k * m)
    _ = ∑ k ∈ range n, (if c = k then p % 2 ^ m else 0) * 2 ^ (k * m) +
        ∑ k ∈ range n, (if c + 1 = k then p / 2 ^ m else 0) * 2 ^ (k * m) := by
      simp only [columnPart, Nat.add_mul, sum_add_distrib]
    _ ≡ p % 2 ^ m * 2 ^ (c * m) + p / 2 ^ m * 2 ^ ((c + 1) * m) [MOD 2 ^ (n * m)] :=
      (sum_ite_eq_modEq m n c _).add (sum_ite_eq_modEq m n (c + 1) _)
    _ = (p % 2 ^ m + 2 ^ m * (p / 2 ^ m)) * 2 ^ (c * m) := by ring
    _ = p * 2 ^ (c * m) := by rw [Nat.mod_add_div]

/-- The four columns at their places make the product, given that every partial product of two
quarter-limbs is exact. -/
theorem sum_productColumn_modEq {times : Nat → Nat → Nat} {m : Nat} (a b : Nat)
    (htimes : ∀ x y, x < 2 ^ m → y < 2 ^ m → times x y = x * y) :
    ∑ k ∈ range 4, productColumn times m a b k * 2 ^ (k * m) ≡ a * b [MOD 2 ^ (4 * m)] := by
  have hexact (i j : Nat) : times (quarterLimb m i a) (quarterLimb m j b) =
      quarterLimb m i a * quarterLimb m j b :=
    htimes _ _ (Nat.mod_lt _ (Nat.two_pow_pos m)) (Nat.mod_lt _ (Nat.two_pow_pos m))
  calc ∑ k ∈ range 4, productColumn times m a b k * 2 ^ (k * m)
    _ = ∑ i ∈ range 4, ∑ j ∈ range 4, ∑ k ∈ range 4,
          columnPart m (quarterLimb m i a * quarterLimb m j b) (i + j) k * 2 ^ (k * m) := by
      simp only [productColumn_eq_sum, hexact, sum_mul]
      rw [sum_comm]
      exact sum_congr rfl fun i _ => sum_comm
    _ ≡ ∑ i ∈ range 4, ∑ j ∈ range 4,
          quarterLimb m i a * quarterLimb m j b * 2 ^ ((i + j) * m) [MOD 2 ^ (4 * m)] :=
      .sum fun i _ => .sum fun j _ => sum_columnPart_modEq m 4 _ (i + j)
    _ = (∑ i ∈ range 4, quarterLimb m i a * 2 ^ (i * m)) *
          ∑ j ∈ range 4, quarterLimb m j b * 2 ^ (j * m) := by
      rw [sum_mul_sum]
      refine sum_congr rfl fun i _ => sum_congr rfl fun j _ => ?_
      rw [Nat.add_mul, Nat.pow_add, mul_mul_mul_comm]
    _ = a % 2 ^ (4 * m) * (b % 2 ^ (4 * m)) := by rw [sum_quarterLimb, sum_quarterLimb]
    _ ≡ a * b [MOD 2 ^ (4 * m)] := (Nat.mod_modEq _ _).mul (Nat.mod_modEq _ _)

theorem schoolbook_eq_mod {times : Nat → Nat → Nat} {m : Nat} (a b : Nat)
    (htimes : ∀ x y, x < 2 ^ m → y < 2 ^ m → times x y = x * y) :
    schoolbook times m a b = a * b % 2 ^ (4 * m) := by
  rw [schoolbook, foldColumns_map_range, Nat.zero_add, pow_zero, Nat.mul_one]
  exact sum_productColumn_modEq a b htimes

theorem schoolbook_mul_eq_mod (a b : Nat) :
    schoolbook (fun x y => x * y) 32 a b = a * b % 2 ^ 128 :=
  schoolbook_eq_mod a b fun _ _ _ _ => rfl

/-- At W = 256 the partial products are W = 128 multiplies of 64-bit values, which keep every bit. No
bound on the operands is needed: the columns take only their low W bits. -/
theorem limbMultiply_eq_productMod (w : Width) (x y : Nat) : limbMultiply w x y = productMod w x y := by
  cases w with
  | w128 => exact schoolbook_mul_eq_mod x y
  | w256 =>
    refine schoolbook_eq_mod x y fun a b ha hb => ?_
    have hlt : a * b < 2 ^ 128 := (Nat.mul_lt_mul'' ha hb).trans_eq (Nat.pow_add 2 64 64).symm
    rw [schoolbook_mul_eq_mod, Nat.mod_eq_of_lt hlt]

/-- Settles O50: the columns of each width make the low half of the product. -/
theorem schoolbookMultiplyIsTheLowProduct : Obligations.SchoolbookMultiplyIsTheLowProduct :=
  fun w x y _ _ => limbMultiply_eq_productMod w x y

end Sys2Proof.Machine
end

section
/-! SUPPORT. DIVREM and BITLEN: both results of a division and its failure (45_divide.md R91, R94, R97,
R98), the bit length and its limb form (R95, R96), and restoring division (R92, R93). Everything about the
bit length comes from one equivalence: it is at most `n` exactly where the value is below `2 ^ n`. -/

namespace Sys2Proof.Machine

/-! ### Division (45_divide.md R91, R94, R97, R98) -/

@[simp] theorem divResult_divided (q r : Nat) (s : State) :
    divResult (complete (writeR r (writeQ q s))) = BitVec.ofNat 256 q := rfl

@[simp] theorem remResult_divided (q r : Nat) (s : State) :
    remResult (complete (writeR r (writeQ q s))) = BitVec.ofNat 256 r := rfl

/-- Settles O31: both results are W-bit values, so the registers hold them whole, and they obey the
division law. -/
theorem divremWritesQuotientAndRemainder : Obligations.DivremWritesQuotientAndRemainder := by
  intro w a b s hb
  have hA := operandA_lt w a s
  have hq := w.toNat_ofNat_of_lt ((Nat.div_le_self _ (operandB w b s)).trans_lt hA)
  have hr := w.toNat_ofNat_of_lt ((Nat.mod_le _ (operandB w b s)).trans_lt hA)
  refine ⟨_, execDivrem_of_ne_zero w a b s hb, ?_, ?_, hq, hr, rfl, rfl, errField_withErr 0 s.status,
    statusKeptButErr_of_withErr rfl, ⟨rfl, rfl, rfl⟩⟩
  · rw [divResult_divided, remResult_divided, hq, hr, Nat.div_add_mod']
  · rw [remResult_divided, hr]
    exact Nat.mod_lt _ (Nat.pos_of_ne_zero hb)

/-- Settles O32: a zero divisor raises DivisionByZero and does nothing else. -/
theorem divremByZeroFailsAndKeepsResults : Obligations.DivremByZeroFailsAndKeepsResults :=
  fun w a b s hb => ⟨_, execDivrem_of_zero w a b s hb, raise_failsWith .divisionByZero s⟩

/-! ### The bit length (45_divide.md R95, R96) -/

@[simp] theorem bitLength_zero : bitLength 0 = 0 := rfl

theorem bitLength_of_ne_zero {v : Nat} (h : v ≠ 0) : bitLength v = Nat.log2 v + 1 := if_neg h

theorem bitLength_le_iff {v n : Nat} : bitLength v ≤ n ↔ v < 2 ^ n := by
  by_cases hv : v = 0
  · simp [hv]
  · rw [bitLength_of_ne_zero hv, Nat.succ_le_iff, Nat.log2_lt hv]

theorem lt_two_pow_bitLength (v : Nat) : v < 2 ^ bitLength v := bitLength_le_iff.1 le_rfl

theorem bitLength_eq_iff {v n : Nat} (hv : 1 ≤ v) :
    bitLength v = n ↔ 1 ≤ n ∧ 2 ^ (n - 1) ≤ v ∧ v < 2 ^ n := by
  have hpos : ¬ bitLength v ≤ 0 := by
    rw [bitLength_le_iff]
    omega
  have hbelow : 2 ^ (n - 1) ≤ v ↔ ¬ bitLength v ≤ n - 1 := by rw [bitLength_le_iff, Nat.not_lt]
  rw [hbelow, ← bitLength_le_iff]
  omega

/-- Settles O33: the bit length is a W-bit value with the bounds of R95. -/
theorem bitlenGivesIndexOfHighestBit : Obligations.BitlenGivesIndexOfHighestBit := by
  intro w a b s
  have hA := operandA_lt w a s
  obtain ⟨t, hexec, hcompletes⟩ := unaryToQ_completes w a bitLength s (bitLength_lt w hA)
  exact ⟨t, _, hexec, hcompletes, bitLength_le_iff.2 hA, fun hzero => by rw [hzero, bitLength_zero],
    fun hpos => ((bitLength_eq_iff hpos).1 rfl).2⟩

/-! ### The limb form of the bit length (45_divide.md R95) -/

theorem testBit_iff_two_pow_le {n v : Nat} (hv : v < 2 ^ (n + 1)) : v.testBit n = true ↔ 2 ^ n ≤ v :=
  ⟨Nat.ge_two_pow_of_testBit, fun hle => Nat.testBit_of_two_pow_le_and_two_pow_add_one_gt hle hv⟩

theorem scanBits_eq_bitLength {n v : Nat} (hv : v < 2 ^ n) : scanBits n v = bitLength v := by
  induction n with
  | zero => rw [Nat.lt_one_iff.1 hv, scanBits, bitLength_zero]
  | succ n ih =>
    rw [scanBits]
    split
    · next hbit =>
      have hle := (testBit_iff_two_pow_le hv).1 hbit
      exact ((bitLength_eq_iff ((Nat.two_pow_pos n).trans_le hle)).2 ⟨n.succ_pos, hle, hv⟩).symm
    · next hbit => exact ih (Nat.lt_of_not_le (mt (testBit_iff_two_pow_le hv).2 hbit))

/-- Dropping the low `m` bits takes `m` off the bit length where anything is left. -/
theorem bitLength_of_div_two_pow_ne_zero {m v : Nat} (h : v / 2 ^ m ≠ 0) :
    bitLength v = m + bitLength (v / 2 ^ m) := by
  have hm : ¬ bitLength v ≤ m := by
    rw [bitLength_le_iff, ← Nat.div_eq_zero_iff_lt (Nat.two_pow_pos m)]
    exact h
  refine eq_of_forall_ge_iff fun c => ?_
  rcases Nat.lt_or_ge c m with hc | hc
  · omega
  · obtain ⟨n, rfl⟩ := Nat.exists_eq_add_of_le hc
    rw [Nat.add_le_add_iff_left, bitLength_le_iff, bitLength_le_iff,
      Nat.div_lt_iff_lt_mul (Nat.two_pow_pos m), Nat.pow_add, Nat.mul_comm]

theorem limbBitLength_eq_bitLength {k v : Nat} (hv : v < 2 ^ limbBits k) :
    limbBitLength k v = bitLength v := by
  induction k generalizing v with
  | zero => exact scanBits_eq_bitLength hv
  | succ k ih =>
    rw [limbBitLength]
    split
    · next hupper => rw [ih (upper_lt hv), bitLength_of_div_two_pow_ne_zero hupper, upper]
    · next hupper =>
      have hlow : v < 2 ^ limbBits k :=
        (Nat.div_eq_zero_iff_lt (Nat.two_pow_pos _)).1 (not_not.1 hupper)
      rw [ih (lower_lt k v), lower, Nat.mod_eq_of_lt hlow]

theorem limbBitLength_limbLevel {w : Width} {v : Nat} (hv : v < 2 ^ w.bits) :
    limbBitLength (limbLevel w) v = bitLength v :=
  limbBitLength_eq_bitLength (limbBits_limbLevel w ▸ hv)

/-- Settles O52: the scan at each level finds the bit length, which has the bounds of R95. -/
theorem limbBitLengthIsBitLength : Obligations.LimbBitLengthIsBitLength :=
  fun _ _ hx => ⟨limbBitLength_limbLevel hx, bitLength_le_iff.2 hx,
    fun hzero => by rw [hzero, bitLength_zero], fun _ hpos => bitLength_eq_iff hpos⟩

/-! ### Restoring division (45_divide.md R92, R93) -/

theorem two_pow_or_of_lt {n v : Nat} (hv : v < 2 ^ n) : 2 ^ n ||| v = 2 ^ n + v := by
  simpa using (Nat.two_pow_add_eq_or_of_lt hv 1).symm

/-- The loop's invariant: with `n` iterations to come the divisor stands `n - 1` places up (half of
`y * 2 ^ n`, also at the end, where no test reads it) and the remainder is below twice that, so one
subtraction an iteration is enough. The quotient bits still to be set are those of `r / y`. -/
theorem restoringLoop_eq {n y r : Nat} (q : Nat) (hy : 1 ≤ y) (hr : r < y * 2 ^ n) :
    restoringLoop n (y * 2 ^ n / 2) q r = (q ||| r / y, r % y) := by
  induction n generalizing q r with
  | zero =>
    have hry : r < y := by simpa using hr
    rw [restoringLoop, Nat.div_eq_of_lt hry, Nat.mod_eq_of_lt hry, Nat.or_zero]
  | succ n ih =>
    have hdouble : y * 2 ^ (n + 1) = y * 2 ^ n * 2 := by rw [Nat.pow_succ, Nat.mul_assoc]
    rw [hdouble, Nat.mul_div_cancel _ Nat.two_pos, restoringLoop]
    split
    · next hle =>
      obtain ⟨m, rfl⟩ := Nat.exists_eq_add_of_le hle
      have hm : m < y * 2 ^ n := by omega
      rw [Nat.add_sub_cancel_left, ih _ hm, Nat.mul_add_div hy, Nat.mul_add_mod,
        ← two_pow_or_of_lt (Nat.div_lt_of_lt_mul hm), Nat.or_assoc]
    · next hgt => exact ih q (Nat.lt_of_not_le hgt)

/-- Aligning the divisor to the dividend's bit length leaves the dividend below twice the aligned
divisor. -/
theorem lt_mul_two_pow_alignment (x : Nat) {y : Nat} (hy : 1 ≤ y) :
    x < y * 2 ^ (bitLength x - bitLength y + 1) := by
  obtain ⟨hpos, hlow, -⟩ := (bitLength_eq_iff hy).1 rfl
  calc x
    _ < 2 ^ bitLength x := lt_two_pow_bitLength x
    _ ≤ 2 ^ (bitLength y - 1 + (bitLength x - bitLength y + 1)) :=
      Nat.pow_le_pow_right Nat.two_pos (by omega)
    _ = 2 ^ (bitLength y - 1) * 2 ^ (bitLength x - bitLength y + 1) := Nat.pow_add _ _ _
    _ ≤ y * 2 ^ (bitLength x - bitLength y + 1) := Nat.mul_le_mul_right _ hlow

theorem restoringLoop_aligned (x : Nat) {y : Nat} (hy : 1 ≤ y) :
    restoringLoop (bitLength x - bitLength y + 1) (y * 2 ^ (bitLength x - bitLength y)) 0 x =
      (x / y, x % y) := by
  have hloop := restoringLoop_eq 0 hy (lt_mul_two_pow_alignment x hy)
  rwa [Nat.pow_succ, ← Nat.mul_assoc, Nat.mul_div_cancel _ Nat.two_pos, Nat.zero_or] at hloop

/-- Settles O51: the special cases give what the loop would, case by case in the order of R92. -/
theorem restoringDivisionIsFloorDivision : Obligations.RestoringDivisionIsFloorDivision := by
  intro w x y hx hy
  simp only [limbDivmod, limbEq_eq_decide, limbLt_eq_decide, limbBitLength_limbLevel hx,
    limbBitLength_limbLevel hy, decide_eq_true_eq]
  split_ifs with hzero hone heq hless
  · rfl
  · rw [hone, Nat.div_one, Nat.mod_one]
  · rw [heq, Nat.div_self (Nat.pos_of_ne_zero hzero), Nat.mod_self]
  · have hlt : x < y := by omega
    rw [Nat.div_eq_of_lt hlt, Nat.mod_eq_of_lt hlt]
  · rw [restoringLoop_aligned x (Nat.pos_of_ne_zero hzero)]

end Sys2Proof.Machine
end

section
/-! SUPPORT. Errors are records, not stops: no state stops the unit (60_exceptions.md R103, R104, R112),
and only a zero divisor makes a legal command fail (R102). -/

namespace Sys2Proof.Machine

/-- Settles O7: the idle step answers the state it was given. -/
theorem idleUnitHoldsState : Obligations.IdleUnitHoldsState := fun s hp => step_of_idle s hp

/-- Settles O5: with nothing pending the unit is idle, and the step of any action answers a state. -/
theorem everyStepAnswersNextState : Obligations.EveryStepAnswersNextState := by
  intro s
  cases hp : s.pending with
  | nil => exact ⟨s, step_of_idle s hp⟩
  | cons action rest =>
    obtain ⟨t, hstep⟩ := exists_step_next action s
    have hnext := hstep rest
    rw [withPending_eq_self hp] at hnext
    exact ⟨t.withPending rest, hnext⟩

/-- Settles O35: without a zero divisor ERR is 0, so STICKY, which gathers the errors, gains nothing. -/
theorem everyOtherLegalCommandCompletes : Obligations.EveryOtherLegalCommandCompletes := by
  intro i s hz
  obtain ⟨t, hexec, heffect⟩ := exists_execEffect i s
  have herr := heffect.errField_of_not_dividesByZero hz
  have hsticky : stickyFlag t.status = stickyFlag s.status := by simpa [herr] using heffect.stickyFlag_eq
  exact ⟨t, hexec, herr, hsticky⟩

end Sys2Proof.Machine
end

section
/-! SUPPORT. All reads of a command happen before its writes (70_reset_and_hazards.md R119), and a host
that selects no unwritten register sees nothing of what reset left in Q and R (R115, 10_state.md R29). For
the second: the selected operands agree, so the same values are written, and each write keeps the
agreement. -/

namespace Sys2Proof.Machine

/-! ### A source may be the destination (70_reset_and_hazards.md R119) -/

/-- Settles O17: what the three commands write is stated of the operands before them. -/
theorem sourceMayEqualDestination : Obligations.SourceMayEqualDestination := by
  intro w s
  obtain ⟨t, hadd, hsum⟩ := addWrapsModuloTheWidth w .q .q s
  obtain ⟨u, hmul, hproduct⟩ := mulKeepsTheLowHalf w .q .q s
  refine ⟨⟨t, hadd, ?_⟩, ⟨u, hmul, ?_⟩, fun hr => ?_⟩
  · rw [hsum.q_value, Nat.two_mul]
    exact (Nat.add_mod _ _ _).symm
  · rw [hproduct.q_value, Nat.pow_two]
    exact (Nat.mul_mod _ _ _).symm
  · obtain ⟨v, hdivrem, -, -, hquotient, hremainder, -⟩ :=
      divremWritesQuotientAndRemainder w .q .r s hr
    exact ⟨v, hdivrem, hquotient, hremainder⟩

/-! ### Agreement on what has been written (70_reset_and_hazards.md R115) -/

section

variable {s t : State} {i : Instr}

/-! The updates of a command keep the agreement. -/

theorem AgreesOnWritten.samplePorts (h : AgreesOnWritten s t) (c : Command)
    (rest : List HostAction) : AgreesOnWritten (samplePorts c rest s) (samplePorts c rest t) :=
  { h with ports := rfl, pending := rfl }

theorem AgreesOnWritten.writeQ (h : AgreesOnWritten s t) (v : Nat) :
    AgreesOnWritten (writeQ v s) (writeQ v t) :=
  { h with q_written := fun _ => rfl, written := ⟨rfl, h.written.2⟩ }

theorem AgreesOnWritten.writeR (h : AgreesOnWritten s t) (v : Nat) :
    AgreesOnWritten (writeR v s) (writeR v t) :=
  { h with r_written := fun _ => rfl, written := ⟨h.written.1, rfl⟩ }

theorem AgreesOnWritten.compared (h : AgreesOnWritten s t) (x y : Nat) :
    AgreesOnWritten { s with status := withCompare x y s.status }
      { t with status := withCompare x y t.status } :=
  { h with status := congrArg (withCompare x y) h.status }

theorem AgreesOnWritten.complete (h : AgreesOnWritten s t) :
    AgreesOnWritten (complete s) (complete t) :=
  { h with status := congrArg (withErr 0) h.status }

theorem AgreesOnWritten.raise (h : AgreesOnWritten s t) (e : ErrorKind) :
    AgreesOnWritten (raise e s) (raise e t) :=
  { h with status := by simp [h.status] }

/-! The operands of a command that selects written registers only agree. -/

theorem AgreesOnWritten.readQ_eq (h : AgreesOnWritten s t) (hq : s.wq = true) :
    readQ t = readQ s := by
  rw [readQ_of_written s hq, readQ_of_written t (h.written.1.trans hq), h.q_written hq]

theorem AgreesOnWritten.readR_eq (h : AgreesOnWritten s t) (hr : s.wr = true) :
    readR t = readR s := by
  rw [readR_of_written s hr, readR_of_written t (h.written.2.trans hr), h.r_written hr]

theorem AgreesOnWritten.sourceA_eq (h : AgreesOnWritten s t) (hi : readsOnlyWritten i s) :
    sourceA (sourceAOf i) t = sourceA (sourceAOf i) s := by
  obtain ⟨hq, hr⟩ := hi
  cases ha : sourceAOf i with
  | pa => exact congrArg Command.pa h.ports
  | q => exact h.readQ_eq (hq (.inl ha))
  | r => exact h.readR_eq (hr (.inl ha))

theorem AgreesOnWritten.sourceB_eq (h : AgreesOnWritten s t) (hi : readsOnlyWritten i s) {b : SrcB}
    (hb : sourceBOf i = some b) : sourceB b t = sourceB b s := by
  obtain ⟨hq, hr⟩ := hi
  cases b with
  | pb => exact congrArg Command.pb h.ports
  | q => exact h.readQ_eq (hq (.inr hb))
  | r => exact h.readR_eq (hr (.inr hb))

theorem AgreesOnWritten.operandA_eq (h : AgreesOnWritten s t) (hi : readsOnlyWritten i s)
    (w : Width) : operandA w (sourceAOf i) t = operandA w (sourceAOf i) s := by
  rw [operandA, operandA, h.sourceA_eq hi]

theorem AgreesOnWritten.operandB_eq (h : AgreesOnWritten s t) (hi : readsOnlyWritten i s) {b : SrcB}
    (hb : sourceBOf i = some b) (w : Width) : operandB w b t = operandB w b s := by
  rw [operandB, operandB, h.sourceB_eq hi hb]

end

/-! What two runs of a command or a step end in. -/

/-- Both answers are next states, and the two agree on what has been written. -/
def AnswersAgree (x y : Result) : Prop :=
  ∃ s' t', x = .next s' ∧ y = .next t' ∧ AgreesOnWritten s' t'

section

variable {s t : State} {i : Instr} {w : Width} {a : SrcA} {b : SrcB}

theorem AgreesOnWritten.execCmp (h : AgreesOnWritten s t)
    (hA : operandA w a t = operandA w a s) (hB : operandB w b t = operandB w b s) :
    AnswersAgree (execCmp w a b s) (execCmp w a b t) := by
  refine ⟨_, _, rfl, rfl, ?_⟩
  rw [hA, hB]
  exact (h.compared _ _).complete

theorem AgreesOnWritten.resultInQ (h : AgreesOnWritten s t) (v : Nat) :
    AnswersAgree (resultInQ v s) (resultInQ v t) :=
  ⟨_, _, rfl, rfl, (h.writeQ v).complete⟩

theorem AgreesOnWritten.unaryToQ (h : AgreesOnWritten s t)
    (hA : operandA w a t = operandA w a s) (f : Nat → Nat) :
    AnswersAgree (unaryToQ w a f s) (unaryToQ w a f t) := by
  rw [Machine.unaryToQ, Machine.unaryToQ, hA]
  exact h.resultInQ _

theorem AgreesOnWritten.binaryToQ (h : AgreesOnWritten s t)
    (hA : operandA w a t = operandA w a s) (hB : operandB w b t = operandB w b s)
    (f : Nat → Nat → Nat) : AnswersAgree (binaryToQ w a b f s) (binaryToQ w a b f t) := by
  rw [Machine.binaryToQ, Machine.binaryToQ, hA, hB]
  exact h.resultInQ _

/-- The divisors agree, so both divisions fail or neither does. -/
theorem AgreesOnWritten.execDivrem (h : AgreesOnWritten s t)
    (hA : operandA w a t = operandA w a s) (hB : operandB w b t = operandB w b s) :
    AnswersAgree (execDivrem w a b s) (execDivrem w a b t) := by
  by_cases hb : operandB w b s = 0
  · exact ⟨_, _, execDivrem_of_zero w a b s hb, execDivrem_of_zero w a b t (hB.trans hb), h.raise _⟩
  · refine ⟨_, _, execDivrem_of_ne_zero w a b s hb,
      execDivrem_of_ne_zero w a b t (hB.trans_ne hb), ?_⟩
    rw [hA, hB]
    exact ((h.writeQ _).writeR _).complete

theorem AgreesOnWritten.exec (h : AgreesOnWritten s t) (hi : readsOnlyWritten i s) :
    AnswersAgree (exec i s) (exec i t) := by
  cases i with
  | cmp w a b => exact h.execCmp (h.operandA_eq hi w) (h.operandB_eq hi rfl w)
  | divrem w a b => exact h.execDivrem (h.operandA_eq hi w) (h.operandB_eq hi rfl w)
  | not w | neg w | bitlen w => exact h.unaryToQ (h.operandA_eq hi w) _
  | _ w => exact h.binaryToQ (h.operandA_eq hi w) (h.operandB_eq hi rfl w) _

end

/-- Settles O45: both steps sample the same ports, and then fail on the same illegal word or run the same
legal command on the same operands. -/
theorem dutifulHostNeverSeesUnspecifiedContents :
    Obligations.DutifulHostNeverSeesUnspecifiedContents := by
  intro s t c rest h hp hduty
  have hp' := h.pending.trans hp
  have hsampled := h.samplePorts c rest
  cases hdec : decode c.cmd with
  | illegal why =>
    exact ⟨_, _, step_of_illegal hp hdec, step_of_illegal hp' hdec, hsampled.raise _⟩
  | legal i =>
    rw [step_of_legal hp hdec, step_of_legal hp' hdec]
    exact hsampled.exec (hduty i hdec)

end Sys2Proof.Machine
end

section
/-! SUPPORT. What an unwritten Q or R stores in the model is never shown (93_implementation_defined.md U1,
U2). Two states look alike exactly when they agree on what has been written and have taken the same number
of resets, so the agreement that every command keeps serves here too; but where a dutiful host selects no
unwritten register, here both states read the same free contents from one. -/

namespace Sys2Proof.Machine

section

variable {s t : State}

/-! ### Looking alike is agreeing on what has been written, after as many resets -/

theorem readQ_of_unwritten (h : s.wq = false) : readQ s = Config.resetQ s.resets := by
  simp [readQ, h]

theorem readR_of_unwritten (h : s.wr = false) : readR s = Config.resetR s.resets := by
  simp [readR, h]

theorem LooksLike.resets_eq (h : LooksLike s t) : t.resets = s.resets := by
  obtain ⟨-, -, hresets⟩ := h.surroundings
  exact hresets

theorem LooksLike.q_eq_of_written (h : LooksLike s t) (hq : s.wq = true) : t.q = s.q := by
  rw [← readQ_of_written t (h.written.1.trans hq), h.q_read, readQ_of_written s hq]

theorem LooksLike.r_eq_of_written (h : LooksLike s t) (hr : s.wr = true) : t.r = s.r := by
  rw [← readR_of_written t (h.written.2.trans hr), h.r_read, readR_of_written s hr]

theorem LooksLike.agreesOnWritten (h : LooksLike s t) : AgreesOnWritten s t := by
  obtain ⟨hports, hpending, -⟩ := h.surroundings
  exact ⟨h.q_eq_of_written, h.r_eq_of_written, h.status, h.written, hports, hpending⟩

/-- An unwritten register reads as the free contents that the reset count selects. -/
theorem AgreesOnWritten.looksLike (h : AgreesOnWritten s t) (hresets : t.resets = s.resets) :
    LooksLike s t where
  q_read := by
    cases hq : s.wq with
    | true => exact h.readQ_eq hq
    | false => rw [readQ_of_unwritten hq, readQ_of_unwritten (h.written.1.trans hq), hresets]
  r_read := by
    cases hr : s.wr with
    | true => exact h.readR_eq hr
    | false => rw [readR_of_unwritten hr, readR_of_unwritten (h.written.2.trans hr), hresets]
  status := h.status
  written := h.written
  surroundings := ⟨h.ports, h.pending, hresets⟩

/-! ### What a command and a step do to states that look alike -/

/-- States that look alike agree on the operands of every command, written or not. -/
theorem LooksLike.agreesBelow (h : LooksLike s t) (w : Width) : AgreesBelow w s t where
  pa := by rw [h.agreesOnWritten.ports]
  pb := by rw [h.agreesOnWritten.ports]
  q := by rw [h.q_read]
  r := by rw [h.r_read]
  status := h.status

theorem LooksLike.exec_answersAgree (h : LooksLike s t) (i : Instr) :
    AnswersAgree (exec i s) (exec i t) := by
  have hA w a := (h.agreesBelow w).operandA_eq a
  have hB w b := (h.agreesBelow w).operandB_eq b
  cases i with
  | cmp w a b => exact h.agreesOnWritten.execCmp (hA w a) (hB w b)
  | divrem w a b => exact h.agreesOnWritten.execDivrem (hA w a) (hB w b)
  | not w a | neg w a | bitlen w a => exact h.agreesOnWritten.unaryToQ (hA w a) _
  | _ w a b => exact h.agreesOnWritten.binaryToQ (hA w a) (hB w b) _

/-- No command takes a reset, so the two reset counts stay equal. -/
theorem LooksLike.exec (h : LooksLike s t) (i : Instr) :
    ∃ s' t', exec i s = .next s' ∧ exec i t = .next t' ∧ LooksLike s' t' := by
  obtain ⟨s', t', hs, ht, hagree⟩ := h.exec_answersAgree i
  obtain ⟨-, -, hresets_s⟩ := (execEffect_of_exec hs).sameSurroundings
  obtain ⟨-, -, hresets_t⟩ := (execEffect_of_exec ht).sameSurroundings
  exact ⟨s', t', hs, ht, hagree.looksLike (hresets_t.trans (h.resets_eq.trans hresets_s.symm))⟩

theorem LooksLike.samplePorts (h : LooksLike s t) (c : Command) (rest : List HostAction) :
    LooksLike (samplePorts c rest s) (samplePorts c rest t) :=
  (h.agreesOnWritten.samplePorts c rest).looksLike h.resets_eq

theorem LooksLike.raise (h : LooksLike s t) (e : ErrorKind) : LooksLike (raise e s) (raise e t) :=
  (h.agreesOnWritten.raise e).looksLike h.resets_eq

/-- Reset forgets what Q and R stored, written or not. -/
theorem LooksLike.takeReset (h : LooksLike s t) (rest : List HostAction) :
    LooksLike (takeReset rest s) (takeReset rest t) := by
  rw [Machine.takeReset, Machine.takeReset, h.agreesOnWritten.ports, h.resets_eq]
  exact ⟨rfl, rfl, rfl, ⟨rfl, rfl⟩, ⟨rfl, rfl, rfl⟩⟩

end

/-- Settles O44: both units take the same action of the host, and each of the three kinds of step keeps
them looking alike. -/
theorem unwrittenPlaceholdersAreNeverShown : Obligations.UnwrittenPlaceholdersAreNeverShown := by
  intro s t h
  have hpending := h.agreesOnWritten.pending
  match hp : s.pending with
  | [] => exact ⟨s, t, step_of_idle s hp, step_of_idle t (hpending.trans hp), h⟩
  | .reset :: rest =>
    exact ⟨_, _, step_of_reset hp, step_of_reset (hpending.trans hp), h.takeReset rest⟩
  | .issue c :: rest =>
    have hsampled := h.samplePorts c rest
    cases hdec : decode c.cmd with
    | illegal why =>
      exact ⟨_, _, step_of_illegal hp hdec, step_of_illegal (hpending.trans hp) hdec,
        hsampled.raise _⟩
    | legal i =>
      rw [step_of_legal hp hdec, step_of_legal (hpending.trans hp) hdec]
      exact hsampled.exec i

end Sys2Proof.Machine
end
